-- ==== Sys2Proof/Word.lean ====
section
/-! DEFINITION. The widths the block works with. -/

namespace Sys2Proof

/-- One data byte, and one table index (00_scope.md R9 `u8`, 20_memory.md R30). -/
abbrev Byte := BitVec 8

/-- One table entry, accumulator, checksum or counter (00_scope.md R5 `W`, R6 `CNTW`). -/
abbrev Word := BitVec 32

/-- One command word (30_encoding.md R45). -/
abbrev CmdWord := BitVec 40

/-- One response word (30_encoding.md R46). -/
abbrev RspWord := BitVec 36

end Sys2Proof
end

