-- ==== Sys2Proof/Syntax.lean ====
section
/-! DEFINITION. The command set: one constructor per row of the opcode map (30_encoding.md R47), each with the
operand its form carries (R48). The operand types hold exactly the values the encodings admit, so every term of
`Instr` is a command the host can issue (log 11). -/

namespace Sys2Proof

/-- The fifteen commands of 30_encoding.md R47. -/
inductive Instr where
  | tinit              -- build the table (R70)
  | seed               -- start a computation (R71)
  | ldacc (v : Word)   -- load the accumulator (R72)
  | extb (b : Byte)    -- extend the accumulator by one byte (R73)
  | final              -- read the finished checksum (R74)
  | rdacc              -- read the raw accumulator (R75)
  | rdtbl (i : Byte)   -- read one table entry (R76)
  | fstart             -- open a frame (R100)
  | fbyte (b : Byte)   -- take one frame byte (R101)
  | fendc              -- end the frame, expected CRC computed (R102)
  | fendp (v : Word)   -- end the frame, expected CRC supplied (R103)
  | rdst               -- read STATUS (R104)
  | rdrx               -- read RXCRC (R105)
  | rdex               -- read EXCRC (R106)
  | rdlen              -- read FCNT (R107)
  deriving DecidableEq, Repr

/-- The three operand forms of 30_encoding.md R48. -/
inductive Form where
  | none   -- N: `arg` must be zero
  | byte   -- B: `arg[7:0]` is the operand, the rest must be zero
  | word   -- W: all of `arg` is the operand
  deriving DecidableEq, Repr

/-- The mnemonic of a command, as spec/opcode_table.json spells it. -/
def Instr.mnemonic : Instr → String
  | .tinit => "TINIT"
  | .seed => "SEED"
  | .ldacc _ => "LDACC"
  | .extb _ => "EXTB"
  | .final => "FINAL"
  | .rdacc => "RDACC"
  | .rdtbl _ => "RDTBL"
  | .fstart => "FSTART"
  | .fbyte _ => "FBYTE"
  | .fendc => "FENDC"
  | .fendp _ => "FENDP"
  | .rdst => "RDST"
  | .rdrx => "RDRX"
  | .rdex => "RDEX"
  | .rdlen => "RDLEN"

end Sys2Proof
end

