-- ==== Sys2Proof/WellFormed.lean ====
section
/-! DEFINITION. Which command words are well formed: the checks of 30_encoding.md R49, each by name. A term of
`Instr` needs no check of its own (Syntax.lean, log 11). -/

namespace Sys2Proof

/-- Why a command word is illegal (30_encoding.md R49). -/
inductive Illegal where
  | opcode        -- (a), (b): `op` is 0x00 or at least 0x10
  | operand       -- (c): form N with a non-zero `arg`
  | wideOperand   -- (d): form B with a bit of `arg[31:8]` set
  deriving DecidableEq, Repr

/-- The operand form of an opcode, where it is assigned (30_encoding.md R47). -/
def formOf (op : Nat) : Option Form :=
  match op with
  | 0x01 | 0x02 | 0x05 | 0x06 | 0x08 | 0x0A | 0x0C | 0x0D | 0x0E | 0x0F => some .none
  | 0x04 | 0x07 | 0x09 => some .byte
  | 0x03 | 0x0B => some .word
  | _ => none

/-- The check an operand fails in a form, if any (30_encoding.md R48, R49). -/
def operandCheck (f : Form) (arg : Word) : Option Illegal :=
  match f with
  | .none => if arg = 0#32 then none else some .operand
  | .byte => if arg.extractLsb' 8 24 = 0#24 then none else some .wideOperand
  | .word => none

/-- The check the two fields of a word fail, if any (30_encoding.md R49). -/
def fieldCheck (op : BitVec 8) (arg : Word) : Option Illegal :=
  match formOf op.toNat with
  | none => some .opcode
  | some f => operandCheck f arg

/-- A command word is well formed when its fields, `op` in bits 39:32 and `arg` in bits 31:0, fail no check. -/
def CmdWord.wf (w : CmdWord) : Bool := (fieldCheck (w.extractLsb' 32 8) (w.extractLsb' 0 32)).isNone

end Sys2Proof
end

