-- ==== Sys2Proof/Decode.lean ====
section
/-! DEFINITION. From command words to commands and back (30_encoding.md sections 1 to 4). Decoding is total, depends
on nothing but the word (R51), and rejects an illegal word by the name of the check of R49 it fails. -/

namespace Sys2Proof

/-- A form N word: `arg` must be zero (30_encoding.md R48). -/
def decodeNone (arg : Word) (i : Instr) : Except Illegal Instr :=
  if arg = 0#32 then .ok i else .error .operand

/-- A form B word: the operand is `arg[7:0]`, and `arg[31:8]` must be zero (30_encoding.md R48). -/
def decodeByte (arg : Word) (i : Byte → Instr) : Except Illegal Instr :=
  if arg.extractLsb' 8 24 = 0#24 then .ok (i (arg.extractLsb' 0 8)) else .error .wideOperand

/-- The decoder of 30_encoding.md R52 on the two fields of a word, with the opcodes of R47. -/
def decodeFields (op : BitVec 8) (arg : Word) : Except Illegal Instr :=
  match op.toNat with
  | 0x01 => decodeNone arg .tinit
  | 0x02 => decodeNone arg .seed
  | 0x03 => .ok (.ldacc arg)
  | 0x04 => decodeByte arg .extb
  | 0x05 => decodeNone arg .final
  | 0x06 => decodeNone arg .rdacc
  | 0x07 => decodeByte arg .rdtbl
  | 0x08 => decodeNone arg .fstart
  | 0x09 => decodeByte arg .fbyte
  | 0x0A => decodeNone arg .fendc
  | 0x0B => .ok (.fendp arg)
  | 0x0C => decodeNone arg .rdst
  | 0x0D => decodeNone arg .rdrx
  | 0x0E => decodeNone arg .rdex
  | 0x0F => decodeNone arg .rdlen
  | _ => .error .opcode

/-- The decoder: `op` is bits 39:32 and `arg` bits 31:0 (30_encoding.md R45, R52). -/
def decode (w : CmdWord) : Except Illegal Instr :=
  decodeFields (w.extractLsb' 32 8) (w.extractLsb' 0 32)

/-- The opcode of a command (30_encoding.md R47). -/
def Instr.opcode : Instr → BitVec 8
  | .tinit => 0x01#8
  | .seed => 0x02#8
  | .ldacc _ => 0x03#8
  | .extb _ => 0x04#8
  | .final => 0x05#8
  | .rdacc => 0x06#8
  | .rdtbl _ => 0x07#8
  | .fstart => 0x08#8
  | .fbyte _ => 0x09#8
  | .fendc => 0x0A#8
  | .fendp _ => 0x0B#8
  | .rdst => 0x0C#8
  | .rdrx => 0x0D#8
  | .rdex => 0x0E#8
  | .rdlen => 0x0F#8

/-- The operand field of a command: a byte is zero-extended, an absent operand is zero (30_encoding.md R52). -/
def Instr.argument : Instr → Word
  | .ldacc v | .fendp v => v
  | .extb b | .rdtbl b | .fbyte b => b.setWidth 32
  | .tinit | .seed | .final | .rdacc | .fstart | .fendc | .rdst | .rdrx | .rdex | .rdlen => 0#32

/-- The word of a command: `{op, arg}` (30_encoding.md R45, R52). -/
def encode (i : Instr) : CmdWord := i.opcode ++ i.argument

/-- One row of the opcode map: a word is the row's command exactly when `w & mask == pattern` (30_encoding.md R47,
which calls the pattern `match`). -/
structure OpRow where
  mnemonic : String
  pattern : CmdWord
  mask : CmdWord
  deriving DecidableEq, Repr

/-- The opcode map, row for row as 30_encoding.md R47 lists it. -/
def opcodeMap : List OpRow :=
  [⟨"TINIT", 0x0100000000#40, 0xFFFFFFFFFF#40⟩,
   ⟨"SEED", 0x0200000000#40, 0xFFFFFFFFFF#40⟩,
   ⟨"LDACC", 0x0300000000#40, 0xFF00000000#40⟩,
   ⟨"EXTB", 0x0400000000#40, 0xFFFFFFFF00#40⟩,
   ⟨"FINAL", 0x0500000000#40, 0xFFFFFFFFFF#40⟩,
   ⟨"RDACC", 0x0600000000#40, 0xFFFFFFFFFF#40⟩,
   ⟨"RDTBL", 0x0700000000#40, 0xFFFFFFFF00#40⟩,
   ⟨"FSTART", 0x0800000000#40, 0xFFFFFFFFFF#40⟩] ++
  [⟨"FBYTE", 0x0900000000#40, 0xFFFFFFFF00#40⟩,
   ⟨"FENDC", 0x0A00000000#40, 0xFFFFFFFFFF#40⟩,
   ⟨"FENDP", 0x0B00000000#40, 0xFF00000000#40⟩,
   ⟨"RDST", 0x0C00000000#40, 0xFFFFFFFFFF#40⟩,
   ⟨"RDRX", 0x0D00000000#40, 0xFFFFFFFFFF#40⟩,
   ⟨"RDEX", 0x0E00000000#40, 0xFFFFFFFFFF#40⟩,
   ⟨"RDLEN", 0x0F00000000#40, 0xFFFFFFFFFF#40⟩]

/-- A word matches a row (30_encoding.md R47). -/
def OpRow.accepts (r : OpRow) (w : CmdWord) : Bool := w &&& r.mask == r.pattern

/-- The instruction the decoder reads from an instruction whose bits are `w`, numbered as spec/opcode_table.json
numbers them; a command is one word of 40 bits carried whole, so no byte order enters (20_memory.md R36). -/
def decodeTableWord (nbits w : Nat) : Option Instr :=
  (decode (BitVec.ofNat 40 (w % 2 ^ nbits))).toOption

end Sys2Proof
end

