-- ==== Sys2Proof/Config.lean ====
section
/-! DEFINITION. The constants of the block (00_scope.md R5 and R6: "A model takes them as literals, not as
arguments"). The block has no implementation parameter a rule depends on (its latency is left out, log 9) and no
free value: every command word in every state has exactly one outcome (R7). -/

namespace Sys2Proof.Config

/-- `POLY`, the generator polynomial in normal form; the machine uses its bit reversal (90_conflicts.md C6). -/
@[simp] abbrev poly : Word := 0x04C11DB7#32

/-- `RPOLY`, `POLY` with its bits in reverse order (R6). -/
@[simp] abbrev rpoly : Word := 0xEDB88320#32

/-- `INIT`, the seed of every accumulator (R5). -/
@[simp] abbrev seed : Word := 0xFFFFFFFF#32

/-- `XOROUT`, the final XOR value (R5). -/
@[simp] abbrev xorOut : Word := 0xFFFFFFFF#32

/-- `NTAB`, the number of table entries (R5). -/
@[simp] abbrev nTab : Nat := 256

/-- `PRELEN`, the length of the preamble in bytes (R5). -/
@[simp] abbrev preLen : Nat := 8

/-- `TRLEN`, the length of the trailer in bytes (R5). -/
@[simp] abbrev trLen : Nat := 4

/-- `VMIN`, the least frame length the validator goes on to check (R5, 90_conflicts.md C1). -/
@[simp] abbrev vMin : Nat := 8

/-- `LMIN`, the least length of a well-formed frame (R5); no command tests it (90_conflicts.md C1). -/
@[simp] abbrev lMin : Nat := 12

/-- `LMAX`, the longest frame the validator can take, the largest value of `FCNT` (R6). -/
@[simp] abbrev lMax : Nat := 4294967295

end Sys2Proof.Config
end

