-- ==== Sys2Proof/Machine/Operands.lean ====
section
/-! DEFINITION. How bytes and words meet inside the block: the table index, the window, the big-endian trailer and
the preamble. -/

namespace Sys2Proof.Machine

/-- Bits 7:0 of a word (00_scope.md R9). -/
def lowByte (a : Word) : Byte := a.extractLsb' 0 8

/-- The index of a lookup, `a[7:0] ^ b` (20_memory.md R37, 40_crc_engine.md R62). -/
def tableIndex (a : Word) (b : Byte) : Byte := lowByte a ^^^ b

/-- The oldest byte in the window, `WIN[31:24]` (20_memory.md R31). -/
def oldestByte (win : Word) : Byte := win.extractLsb' 24 8

/-- A byte enters the window: `(WIN << 8) | zext_32(b)` (41_frame_validator.md R101). -/
def pushByte (win : Word) (b : Byte) : Word := (win <<< 8) ||| b.setWidth 32

/-- Bytes read as a big-endian number, the first the most significant (00_scope.md R9 `be32`, given there for four
bytes; on fewer bytes it is the number with zero bytes in front, log 12). -/
def be32 (d : List Byte) : Word := d.foldl pushByte 0#32

/-- The four bytes of a word, most significant first (00_scope.md R9 `be32bytes`). -/
def be32bytes (v : Word) : List Byte :=
  [v.extractLsb' 24 8, v.extractLsb' 16 8, v.extractLsb' 8 8, v.extractLsb' 0 8]

/-- `PRE[k]`: 0xAA for even `k`, 0x55 for odd `k`, `k` in 0 to 7 (41_frame_validator.md R91). -/
def preByte (k : Nat) : Byte := if k % 2 = 0 then 0xAA#8 else 0x55#8

/-- The handshake preamble `PRE` (00_scope.md R5). -/
def preamble : List Byte := [0xAA#8, 0x55#8, 0xAA#8, 0x55#8, 0xAA#8, 0x55#8, 0xAA#8, 0x55#8]

end Sys2Proof.Machine
end

