-- ==== Sys2Proof/Machine/State.lean ====
section
/-! DEFINITION. The state of the block (10_state.md R10), the host acts it has still to see, the responses it has
given, and the reasons a step can stop. -/

namespace Sys2Proof.Machine

/-- `PHASE` (10_state.md R13): no frame open, or a frame open. -/
inductive Phase where
  | idle
  | opened
  deriving DecidableEq, Repr

/-- `VERDICT` (10_state.md R15): "a 3-bit field with these values and no others" (log 8). -/
inductive Verdict where
  | none    -- V_NONE, no frame has been ended since reset
  | ok      -- V_OK
  | short   -- V_SHORT, FrameTooShort
  | hs      -- V_HS, BadHandshake
  | crc     -- V_CRC, CrcMismatch
  deriving DecidableEq, Repr

/-- The protocol errors of 60_exceptions.md R122. -/
inductive ProtoError where
  | ill     -- E_ILL, the word matches no row of the opcode map
  | noTbl   -- E_NOTBL, the table is needed and has not been built
  | seq     -- E_SEQ, a frame command outside an open frame
  | len     -- E_LEN, the byte counter is full
  deriving DecidableEq, Repr

/-- The block's one memory, the table space (20_memory.md R30): (index, entry) pairs. An index that is not listed has
no value (log 5). -/
abbrev Memory := List (Nat × Word)

/-- The canonical form of the memory, as a fold from the front: indices strictly rising from `lo` on, and inside the
table space of 256 locations (20_memory.md R30). -/
def Memory.wfFrom : Nat → Memory → Bool
  | _, [] => true
  | lo, (k, _) :: rest => decide (lo ≤ k) && decide (k < Config.nTab) && Memory.wfFrom (k + 1) rest

/-- The canonical form of the memory: indices strictly rising and inside the table space. No entry can equal what an
unlisted index reads as, which is no value at all. -/
def Memory.wf (m : Memory) : Bool := Memory.wfFrom 0 m

/-- The state of the block, element for element as 10_state.md R10 lists it ("There is no other state"). -/
structure Block where
  table : Memory       -- TABLE
  tv : Bool            -- TV
  acc : Word           -- ACC
  phase : Phase        -- PHASE
  fcnt : Word          -- FCNT
  hsok : Bool          -- HSOK
  win : Word           -- WIN
  vacc : Word          -- VACC
  verdict : Verdict    -- VERDICT
  rxcrc : Word         -- RXCRC
  excrc : Word         -- EXCRC
  err : Bool           -- ERR
  deriving DecidableEq, Repr

/-- The block after reset (10_state.md R23, 70_reset_and_hazards.md R141); the table has no value (log 5). -/
def Block.reset : Block where
  table := []
  tv := false
  acc := 0xFFFFFFFF#32
  phase := .idle
  fcnt := 0#32
  hsok := true
  win := 0#32
  vacc := 0xFFFFFFFF#32
  verdict := .none
  rxcrc := 0#32
  excrc := 0#32
  err := false

/-- What the host can do next (70_reset_and_hazards.md R152). -/
inductive HostAct where
  | cmd (w : CmdWord)         -- issue a command word
  | rst                       -- assert reset between commands
  | rstDuring (w : CmdWord)   -- assert reset while the command `w` is in flight (R141; log 4)
  deriving DecidableEq, Repr

/-- The machine: the block, the host acts still to come (log 1), and the responses given so far, oldest first
(log 2). The last two belong to the environment (10_state.md R25). -/
structure State where
  block : Block
  host : List HostAct
  rsps : List RspWord
  deriving DecidableEq, Repr

/-- The machine right after reset: the host has issued nothing yet and nothing has been answered. -/
def State.reset : State where
  block := Block.reset
  host := []
  rsps := []

/-- Why the machine stops. The block itself never does (00_scope.md R7). -/
inductive Fault where
  /-- Raised by a table read (`EXTB`, `FBYTE`, `RDTBL`) of an entry that has no value while `TV` says the table is
  built. Safe: the model stops where the spec gives no value (20_memory.md R31), and no state that meets the
  invariant of 10_state.md R24 item 1 gets there. -/
  | unbuiltEntry (index : Byte)
  deriving DecidableEq, Repr

/-- Why a command has no meaning in the model. -/
inductive Refusal where
  /-- Raised by `exec` for a command whose meaning is not written yet. Safe. No arm of `exec` raises it. -/
  | notModelled (mnemonic : String)
  deriving DecidableEq, Repr

end Sys2Proof.Machine
end

