-- ==== Sys2Proof/Machine/Functions.lean ====
section
/-! DEFINITION. The pure functions of the spec: `tbl`, `crc_step`, `extend`, `compute` (40_crc_engine.md section 1),
`validate` and the reference builder `mkframe` (41_frame_validator.md sections 1 and 2). -/

namespace Sys2Proof.Machine

/-- One bit of the table construction: shift right, and XOR `RPOLY` when the bit shifted out was 1
(40_crc_engine.md R61; log 7). -/
def bitStep (c : Word) : Word :=
  if c.getLsbD 0 then (c >>> 1) ^^^ Config.rpoly else c >>> 1

/-- `n` bit steps; eight of them are `bitstep8` of 40_crc_engine.md R68. -/
def bitSteps : Nat → Word → Word
  | 0, c => c
  | n + 1, c => bitSteps n (bitStep c)

/-- `tbl(i)`, one table entry (40_crc_engine.md R61). -/
def tbl (i : Byte) : Word := bitSteps 8 (i.setWidth 32)

/-- `crc_step(a, b)`, one byte of `extend` (40_crc_engine.md R62). -/
def crcStep (a : Word) (b : Byte) : Word := (a >>> 8) ^^^ tbl (tableIndex a b)

/-- `extend(a, d)` (40_crc_engine.md R63). -/
def extend : Word → List Byte → Word
  | a, [] => a
  | a, b :: d => extend (crcStep a b) d

/-- `compute(d)` (40_crc_engine.md R64). -/
def compute (d : List Byte) : Word := extend Config.seed d ^^^ Config.xorOut

/-- What `validate` returns: a verdict and, for two of them, the pair of checksums (41_frame_validator.md R95). -/
inductive Judgement where
  | short
  | badHandshake
  | mismatch (received expected : Word)
  | good (received expected : Word)
  deriving DecidableEq, Repr

/-- The verdict of a judgement (60_exceptions.md R121). -/
def Judgement.verdict : Judgement → Verdict
  | .short => .short
  | .badHandshake => .hs
  | .mismatch _ _ => .crc
  | .good _ _ => .ok

/-- `validate(f, p)`, the document's `validateFrame` (41_frame_validator.md R95). -/
def validate (f : List Byte) (p : Option Word) : Judgement :=
  if f.length < Config.vMin then .short
  else if f.take Config.preLen ≠ preamble then .badHandshake
  else
    let received := be32 (f.drop (f.length - Config.trLen))
    let expected := p.getD (compute (f.take (f.length - Config.trLen)))
    if received = expected then .good received expected else .mismatch received expected

/-- A well-formed frame (41_frame_validator.md R93). -/
def wellFormedFrame (f : List Byte) : Prop :=
  Config.lMin ≤ f.length ∧ f.take Config.preLen = preamble ∧
    be32 (f.drop (f.length - Config.trLen)) = compute (f.take (f.length - Config.trLen))

/-- `mkframe(p)`, the reference builder, for laws only: no command calls it (41_frame_validator.md R94). -/
def mkframe (p : List Byte) : List Byte :=
  (preamble ++ p) ++ be32bytes (compute (preamble ++ p))

end Sys2Proof.Machine
end

