-- ==== Sys2Proof/Machine/Flags.lean ====
section
/-! DEFINITION. The flags, the verdict and the `STATUS` view (10_state.md sections 4 and 5). -/

namespace Sys2Proof.Machine

/-- The bit of `PHASE` (10_state.md R14). -/
def Phase.bit : Phase → Bool
  | .idle => false
  | .opened => true

/-- The 3-bit code of a verdict (10_state.md R15, 60_exceptions.md R121). -/
def Verdict.code : Verdict → BitVec 3
  | .none => 0#3
  | .ok => 1#3
  | .short => 2#3
  | .hs => 3#3
  | .crc => 4#3

/-- `STATUS`: 25 zero bits, `VERDICT`, `ERR`, `HSOK`, `PHASE`, `TV` (10_state.md R14, 41_frame_validator.md R104). -/
def statusWord (b : Block) : Word :=
  0#25 ++ b.verdict.code ++ BitVec.ofBool b.err ++ BitVec.ofBool b.hsok ++ BitVec.ofBool b.phase.bit ++
    BitVec.ofBool b.tv

/-- `HSOK` after a frame byte: cleared by one of the first eight bytes that differs from the preamble byte at its
place, else kept (10_state.md R13, 41_frame_validator.md R101). -/
def hsokAfter (b : Block) (x : Byte) : Bool :=
  if b.fcnt.toNat < Config.preLen ∧ x ≠ preByte b.fcnt.toNat then false else b.hsok

/-- The comparison of received and expected CRC is made: the frame is long enough and its preamble is good
(41_frame_validator.md R102). -/
def frameCompared (b : Block) : Bool := if b.fcnt.toNat < Config.vMin then false else b.hsok

/-- The verdict on the open frame against an expected CRC, the first that applies in the order `V_SHORT`, `V_HS`,
`V_CRC`, `V_OK` (41_frame_validator.md R102, 60_exceptions.md R126). -/
def frameVerdict (b : Block) (expected : Word) : Verdict :=
  if b.fcnt.toNat < Config.vMin then .short
  else if b.hsok = false then .hs
  else if b.win = expected then .ok
  else .crc

end Sys2Proof.Machine
end

