-- ==== Sys2Proof/Machine/Ops.lean ====
section
/-! DEFINITION. The named operations the meanings share: reading and writing the table, answering a command, refusing
one (the block's only trap-like mechanism, 60_exceptions.md R124), and the updates of the block's registers. There is
no return from a refusal: nothing is saved and the next command is handled as any other (R127). -/

namespace Sys2Proof.Machine

/-- What a command ends in. -/
abbrev Result := Host.Outcome State Fault Refusal

/-- The value at an index of the memory, if it has one. -/
def memRead : Memory → Nat → Option Word
  | [], _ => none
  | (k, v) :: rest, i => if k = i then some v else memRead rest i

/-- The memory with one value written, in canonical form. -/
def memWrite : Memory → Nat → Word → Memory
  | [], i, v => [(i, v)]
  | (k, u) :: rest, i, v =>
    if i < k then (i, v) :: (k, u) :: rest
    else if i = k then (i, v) :: rest
    else (k, u) :: memWrite rest i v

/-- `TblRead(i)` (00_scope.md R9, 20_memory.md R31): no value for an entry that has not been built. -/
def tblRead (m : Memory) (i : Byte) : Option Word := memRead m i.toNat

/-- `TblWrite(i, v)` (00_scope.md R9); used by `TINIT` only (20_memory.md R32). -/
def tblWrite (m : Memory) (i : Byte) (v : Word) : Memory := memWrite m i.toNat v

/-- The 256 indices of the table space (20_memory.md R30). -/
@[irreducible] def tableIndices : List Byte := (List.range Config.nTab).map (BitVec.ofNat 8)

/-- `TblWrite(i, tbl(i))` for every index of a list. -/
def buildEntries (indices : List Byte) (m : Memory) : Memory :=
  indices.foldr (fun i t => tblWrite t i (tbl i)) m

/-- All 256 entries written, each with `tbl(i)` (40_crc_engine.md R70). The writes go to distinct entries and are
made in one step, so their order cannot be seen (log 13). The list of indices is irreducible so that no proof unfolds
256 writes by accident; `tblRead_buildTable` (Laws/Memory.lean) says what the table holds. -/
def buildTable (m : Memory) : Memory := buildEntries tableIndices m

/-- The 4-bit status of a refusal (60_exceptions.md R122). -/
def ProtoError.code : ProtoError → BitVec 4
  | .ill => 1#4
  | .noTbl => 2#4
  | .seq => 3#4
  | .len => 4#4

/-- The status of an accepted command (30_encoding.md R46). -/
def stOk : BitVec 4 := 0#4

/-- The response word `{st, val}` (30_encoding.md R46). -/
def rspWord (st : BitVec 4) (val : Word) : RspWord := st ++ val

/-- The `st` field of a response word, bits 35:32 (30_encoding.md R46). -/
def rspSt (r : RspWord) : BitVec 4 := r.extractLsb' 32 4

/-- The `val` field of a response word, bits 31:0 (30_encoding.md R46). -/
def rspVal (r : RspWord) : Word := r.extractLsb' 0 32

/-- The command leaves the block as `b` and answers `(st, val)`: the one way a command changes the machine. -/
def State.reply (s : State) (b : Block) (st : BitVec 4) (val : Word) : State :=
  { s with block := b, rsps := s.rsps ++ [rspWord st val] }

/-- `respond(OK, val)` with the block left as `b` (00_scope.md R9). -/
def accept (s : State) (b : Block) (val : Word) : Result := .next (s.reply b stOk val)

/-- `ERR <- 1` (60_exceptions.md R124). -/
def Block.markError (b : Block) : Block := { b with err := true }

/-- `raise <E>` (60_exceptions.md R124): `ERR <- 1`, `respond(E, 0)`, nothing else. -/
def raise (s : State) (e : ProtoError) : Result := .next (s.reply s.block.markError e.code 0#32)

/-- A table read inside a command: an entry that has no value stops the machine (20_memory.md R31; log 5). -/
def lookup (b : Block) (i : Byte) (k : Word → Result) : Result :=
  match tblRead b.table i with
  | some v => k v
  | none => .fault (.unbuiltEntry i)

/-- `TINIT`'s writes (40_crc_engine.md R70). -/
def Block.withTable (b : Block) : Block := { b with table := buildTable b.table, tv := true }

/-- `ACC <- v`. -/
def Block.withAcc (b : Block) (v : Word) : Block := { b with acc := v }

/-- `FSTART`'s writes (41_frame_validator.md R100). -/
def Block.openFrame (b : Block) : Block :=
  { b with phase := .opened, fcnt := 0#32, hsok := true, win := 0#32, vacc := Config.seed }

/-- `FBYTE`'s writes, `a` being the new `VACC`; every right-hand side uses the values from before
(41_frame_validator.md R101). -/
def Block.takeByte (b : Block) (x : Byte) (a : Word) : Block :=
  { b with vacc := a, hsok := hsokAfter b x, win := pushByte b.win x, fcnt := b.fcnt + 1#32 }

/-- A frame-end command's writes against an expected CRC: the verdict, the phase, and the two checksums where the
comparison is made (41_frame_validator.md R102). -/
def Block.closeFrame (b : Block) (expected : Word) : Block :=
  { b with
    verdict := frameVerdict b expected
    phase := .idle
    rxcrc := if frameCompared b then b.win else b.rxcrc
    excrc := if frameCompared b then expected else b.excrc }

end Sys2Proof.Machine
end

