-- ==== Sys2Proof/Machine/Engine.lean ====
section
/-! DEFINITION. The meanings of the engine's seven commands (40_crc_engine.md section 3). -/

namespace Sys2Proof.Machine

/-- `TINIT` (40_crc_engine.md R70). -/
def execTinit (s : State) : Result := accept s s.block.withTable 0#32

/-- `SEED` (40_crc_engine.md R71). -/
def execSeed (s : State) : Result := accept s (s.block.withAcc Config.seed) 0#32

/-- `LDACC v` (40_crc_engine.md R72). -/
def execLdacc (v : Word) (s : State) : Result := accept s (s.block.withAcc v) 0#32

/-- `EXTB b` (40_crc_engine.md R73). -/
def execExtb (b : Byte) (s : State) : Result :=
  if s.block.tv = false then raise s .noTbl
  else
    lookup s.block (tableIndex s.block.acc b) fun e =>
      accept s (s.block.withAcc ((s.block.acc >>> 8) ^^^ e)) 0#32

/-- `FINAL` (40_crc_engine.md R74). -/
def execFinal (s : State) : Result := accept s s.block (s.block.acc ^^^ Config.xorOut)

/-- `RDACC` (40_crc_engine.md R75). -/
def execRdacc (s : State) : Result := accept s s.block s.block.acc

/-- `RDTBL i` (40_crc_engine.md R76). -/
def execRdtbl (i : Byte) (s : State) : Result :=
  if s.block.tv = false then raise s .noTbl
  else lookup s.block i fun e => accept s s.block e

end Sys2Proof.Machine
end

