-- ==== Sys2Proof/Machine/Validator.lean ====
section
/-! DEFINITION. The meanings of the validator's eight commands (41_frame_validator.md section 3). -/

namespace Sys2Proof.Machine

/-- `FSTART` (41_frame_validator.md R100). -/
def execFstart (s : State) : Result := accept s s.block.openFrame 0#32

/-- The byte that leaves the window advances `VACC`; none leaves before the fifth byte of a frame
(41_frame_validator.md R101, 20_memory.md R31). -/
def feedOldest (b : Block) (k : Word → Result) : Result :=
  if Config.trLen ≤ b.fcnt.toNat then
    lookup b (tableIndex b.vacc (oldestByte b.win)) fun e => k ((b.vacc >>> 8) ^^^ e)
  else k b.vacc

/-- `FBYTE b` (41_frame_validator.md R101, with the priority of 60_exceptions.md R125). -/
def execFbyte (b : Byte) (s : State) : Result :=
  if s.block.tv = false then raise s .noTbl
  else if s.block.phase = .idle then raise s .seq
  else if s.block.fcnt.toNat = Config.lMax then raise s .len
  else feedOldest s.block fun a => accept s (s.block.takeByte b a) 0#32

/-- A frame-end command with its expected CRC (41_frame_validator.md R102). -/
def endFrame (s : State) (expected : Word) : Result :=
  if s.block.phase = .idle then raise s .seq
  else accept s (s.block.closeFrame expected) ((frameVerdict s.block expected).code.setWidth 32)

/-- `FENDC` (41_frame_validator.md R102): the expected CRC is the one the validator computed. -/
def execFendc (s : State) : Result := endFrame s (s.block.vacc ^^^ Config.xorOut)

/-- `FENDP v` (41_frame_validator.md R103): the expected CRC is the operand. -/
def execFendp (v : Word) (s : State) : Result := endFrame s v

/-- `RDST` (41_frame_validator.md R104). -/
def execRdst (s : State) : Result := accept s s.block (statusWord s.block)

/-- `RDRX` (41_frame_validator.md R105). -/
def execRdrx (s : State) : Result := accept s s.block s.block.rxcrc

/-- `RDEX` (41_frame_validator.md R106). -/
def execRdex (s : State) : Result := accept s s.block s.block.excrc

/-- `RDLEN` (41_frame_validator.md R107). -/
def execRdlen (s : State) : Result := accept s s.block s.block.fcnt

end Sys2Proof.Machine
end

