-- ==== Sys2Proof/Machine/Dispatch.lean ====
section
/-! DEFINITION. One arm per command: the meaning each one has. -/

namespace Sys2Proof.Machine

-- The engine's commands (40_crc_engine.md), then the validator's (41_frame_validator.md).
def exec (i : Instr) (s : State) : Host.Outcome State Fault Refusal :=
  match i with
  | .tinit => Sys2Proof.Machine.execTinit s
  | .seed => Sys2Proof.Machine.execSeed s
  | .ldacc v => Sys2Proof.Machine.execLdacc v s
  | .extb b => Sys2Proof.Machine.execExtb b s
  | .final => Sys2Proof.Machine.execFinal s
  | .rdacc => Sys2Proof.Machine.execRdacc s
  | .rdtbl k => Sys2Proof.Machine.execRdtbl k s
  | .fstart => Sys2Proof.Machine.execFstart s
  | .fbyte b => Sys2Proof.Machine.execFbyte b s
  | .fendc => Sys2Proof.Machine.execFendc s
  | .fendp v => Sys2Proof.Machine.execFendp v s
  | .rdst => Sys2Proof.Machine.execRdst s
  | .rdrx => Sys2Proof.Machine.execRdrx s
  | .rdex => Sys2Proof.Machine.execRdex s
  | .rdlen => Sys2Proof.Machine.execRdlen s

end Sys2Proof.Machine
end

