-- ==== Sys2Proof/Machine/Port.lean ====
section
/-! DEFINITION. What the block does with one act of the host: a command word is decoded and done, or refused when it
is illegal; a reset puts every element of the block at its reset value. -/

namespace Sys2Proof.Machine

/-- A command word reaches the block. Decoding comes first: an illegal word is refused `E_ILL` whatever the state
(30_encoding.md R49, 60_exceptions.md R125). -/
def issue (w : CmdWord) (s : State) : Result :=
  match decode w with
  | .ok i => exec i s
  | .error _ => raise s .ill

/-- Reset (70_reset_and_hazards.md R140, R141): the block is as after power-up, and no response is given. A command
in flight leaves nothing but its missing response (log 4). -/
def State.resetBlock (s : State) : State := { s with block := Block.reset }

/-- One act of the host (70_reset_and_hazards.md R152). -/
def perform (a : HostAct) (s : State) : Result :=
  match a with
  | .cmd w => issue w s
  | .rst => .next s.resetBlock
  | .rstDuring _ => .next s.resetBlock

/-- The machine with this command word as the host's next act. -/
def State.withCommand (s : State) (w : CmdWord) : State := { s with host := .cmd w :: s.host }

end Sys2Proof.Machine
end

