-- ==== Sys2Proof/Machine/Step.lean ====
section
/-! DEFINITION. One step of the machine: the block handles the host's next act (00_scope.md R7). -/

namespace Sys2Proof.Machine

/-- The block handles the host's next act. When the host has none, nothing changes: "Nothing in the block changes
between commands" (00_scope.md R7; log 3). -/
def step (s : State) : Host.Outcome State Fault Refusal :=
  match s.host with
  | [] => .next s
  | a :: rest => perform a { s with host := rest }

/-- `s` with the command word `w` (of `nbits` bits, the rest zero) as the host's next act: the block fetches no
program, so the port is where the next command comes from (10_state.md R12; log 10). -/
def State.withFetchWord (s : State) (nbits w : Nat) : State :=
  s.withCommand (BitVec.ofNat 40 (w % 2 ^ nbits))

end Sys2Proof.Machine
end

