-- ==== Sys2Proof/Safety.lean ====
section
/-! DEFINITION. The terms claims about the machine use: its invariants (10_state.md R24), what a run is, which host
acts leave a computation alone, and what an open frame has taken in (41_frame_validator.md R108). -/

namespace Sys2Proof.Machine

/-- 10_state.md R24 item 1: once `TV` is 1, every entry holds `tbl` of its index. -/
def TableBuilt (b : Block) : Prop := b.tv = true → ∀ i : Byte, tblRead b.table i = some (tbl i)

/-- The invariants of 10_state.md R24 that speak of one state (items 1, 3, 5, 6 and 8; the values of item 4 and the
zeros of item 7 hold by the shape of the state and of `STATUS`), and the memory's canonical form. -/
structure Inv (s : State) : Prop where
  memory : Memory.wf s.block.table = true
  table : TableBuilt s.block
  frameNeedsTable : s.block.phase = .opened → 0 < s.block.fcnt.toNat → s.block.tv = true
  noVerdict : s.block.verdict = .none → s.block.rxcrc = 0#32 ∧ s.block.excrc = 0#32
  window : s.block.fcnt.toNat < 4 →
    s.block.win >>> (8 * s.block.fcnt.toNat) = 0#32 ∧ s.block.vacc = 0xFFFFFFFF#32
  verdictOk : s.block.verdict = .ok → s.block.rxcrc = s.block.excrc
  verdictCrc : s.block.verdict = .crc → s.block.rxcrc ≠ s.block.excrc

/-- A safe state: no command has been refused since reset (60_exceptions.md R127, 70_reset_and_hazards.md R152). -/
def NoProtocolError (s : State) : Prop := s.block.err = false

/-- The machine after `n` steps, if it gets there. -/
def RunsTo (n : Nat) (s t : State) : Prop := Host.Core.run Sys2Proof.core n s = .next t

/-- A state the machine can be in: reached from reset by some acts of the host (10_state.md R24). -/
def Reachable (t : State) : Prop :=
  ∃ (acts : List HostAct) (n : Nat), RunsTo n { State.reset with host := acts } t

/-- The command answered with value `v`: the block is `b`, and `(OK, v)` is the last response. -/
def answered (s : State) (b : Block) (v : Word) : State :=
  { s with block := b, rsps := s.rsps ++ [0#4 ++ v] }

/-- The command was refused with status `e`: `ERR` is 1, `(e, 0)` is the last response, nothing else has changed
(60_exceptions.md R124). -/
def refusedWith (s : State) (e : BitVec 4) : State :=
  { s with block := { s.block with err := true }, rsps := s.rsps ++ [e ++ 0#32] }

/-- The status a command answers with, by the table of outcomes of 60_exceptions.md R123. -/
def outcomeStatus (i : Instr) (b : Block) : BitVec 4 :=
  match i with
  | .extb _ | .rdtbl _ => if b.tv = false then 2#4 else 0#4
  | .fbyte _ =>
    if b.tv = false then 2#4
    else if b.phase = .idle then 3#4
    else if b.fcnt = 0xFFFFFFFF#32 then 4#4
    else 0#4
  | .fendc | .fendp _ => if b.phase = .idle then 3#4 else 0#4
  | .tinit | .seed | .ldacc _ | .final | .rdacc | .fstart | .rdst | .rdrx | .rdex | .rdlen => 0#4

/-- The act is a reset. -/
def HostAct.isReset : HostAct → Bool
  | .cmd _ => false
  | .rst => true
  | .rstDuring _ => true

/-- The command an act issues, if its word is legal. -/
def HostAct.command? : HostAct → Option Instr
  | .cmd w => (decode w).toOption
  | .rst => none
  | .rstDuring _ => none

/-- An act that may stand between the bytes of a computation (40_crc_engine.md R77): no reset, no `SEED`, no
`LDACC`. -/
def HostAct.keepsComputation (a : HostAct) : Bool :=
  match a.isReset, a.command? with
  | true, _ => false
  | false, some .seed => false
  | false, some (.ldacc _) => false
  | false, _ => true

/-- An act that may stand between the bytes of a frame (41_frame_validator.md R108): no reset, no `FSTART`, no
frame-end command. -/
def HostAct.keepsFrame (a : HostAct) : Bool :=
  match a.isReset, a.command? with
  | true, _ => false
  | false, some .fstart => false
  | false, some .fendc => false
  | false, some (.fendp _) => false
  | false, _ => true

/-- The bytes the `EXTB` commands among some acts carry, in order. -/
def extbBytes (acts : List HostAct) : List Byte :=
  acts.filterMap fun a => match a.command? with
    | some (.extb b) => some b
    | _ => none

/-- The bytes the `FBYTE` commands among some acts carry, in order. -/
def fbyteBytes (acts : List HostAct) : List Byte :=
  acts.filterMap fun a => match a.command? with
    | some (.fbyte b) => some b
    | _ => none

/-- What the block holds of the open frame after its bytes `f` (41_frame_validator.md R108). -/
structure FrameTaken (f : List Byte) (b : Block) : Prop where
  phase : b.phase = .opened
  count : b.fcnt.toNat = f.length
  handshake : b.hsok = true ↔ ∀ j, j < min f.length 8 → f[j]? = preamble[j]?
  window : b.win = be32 (List.replicate (4 - f.length) 0#8 ++ f.drop (f.length - 4))
  accumulator : b.vacc = extend 0xFFFFFFFF#32 (f.take (f.length - 4))

/-- The checksums of a judgement, where it has any (41_frame_validator.md R95). -/
def Judgement.checksums : Judgement → Option (Word × Word)
  | .short => none
  | .badHandshake => none
  | .mismatch r e => some (r, e)
  | .good r e => some (r, e)

/-- A frame with one bit flipped: bit `j % 8` of byte `j / 8`. -/
def flipBit (j : Nat) (f : List Byte) : List Byte := f.modify (j / 8) (· ^^^ (1#8 <<< (j % 8)))

end Sys2Proof.Machine
end

