-- ==== Sys2Proof/Certificates/Slice0/Obligations.lean ====
section
/-! DEFINITION. The statements for the provers. Each docstring names the rules of spec/ it formalises. -/

open Sys2Proof Sys2Proof.Machine

/-! ## Encoding (30_encoding.md) -/

/-- A sanity statement: words written out from 30_encoding.md R45 and R47, and illegal words of R49, decode as
95_test_vectors.md section 3.4 lists them. -/
def Obligations.SpecWordsDecode : Prop :=
  decode 0x0100000000#40 = .ok .tinit ∧ decode 0x0400000031#40 = .ok (.extb 0x31#8) ∧
  decode 0x03641C1F5C#40 = .ok (.ldacc 0x641C1F5C#32) ∧ decode 0x07000000FF#40 = .ok (.rdtbl 0xFF#8) ∧
  decode 0x09000000AA#40 = .ok (.fbyte 0xAA#8) ∧ decode 0x0B00000000#40 = .ok (.fendp 0#32) ∧
  decode 0x0F00000000#40 = .ok .rdlen ∧ decode 0x0000000000#40 = .error .opcode ∧
  decode 0x1000000000#40 = .error .opcode ∧ decode 0xFFFFFFFFFF#40 = .error .opcode ∧
  decode 0x0A00000001#40 = .error .operand ∧ decode 0x0C80000000#40 = .error .operand ∧
  decode 0x0400000100#40 = .error .wideOperand ∧ decode 0x0700000100#40 = .error .wideOperand

/-- 30_encoding.md section 4: `decode(encode(c)) == c` for every command `c`. -/
def Obligations.DecodeEncodeIsIdentity : Prop :=
  ∀ i : Instr, decode (encode i) = .ok i

/-- 30_encoding.md section 4: `encode(decode(w)) == w` for every legal word `w`. -/
def Obligations.EncodeDecodeIsIdentityOnLegalWords : Prop :=
  ∀ (w : CmdWord) (i : Instr), decode w = .ok i → encode i = w

/-- 30_encoding.md R47: a word is the command of a row exactly when `w & mask == match`, and at most one row
matches. -/
def Obligations.OpcodeMapGivesTheCommand : Prop :=
  ∀ w : CmdWord,
    (∀ i, decode w = .ok i → ∃ r ∈ opcodeMap, r.mnemonic = i.mnemonic ∧ w &&& r.mask = r.pattern) ∧
    (∀ r ∈ opcodeMap, w &&& r.mask = r.pattern → ∃ i, decode w = .ok i ∧ i.mnemonic = r.mnemonic) ∧
    (∀ r ∈ opcodeMap, ∀ r' ∈ opcodeMap, w &&& r.mask = r.pattern → w &&& r'.mask = r'.pattern → r = r')

/-- 30_encoding.md R49: a word is illegal exactly when (a) `op == 0x00`, (b) `op >= 0x10`, (c) form N with
`arg != 0` or (d) form B with `arg[31:8] != 0`; an illegal word is refused `E_ILL` in every state. -/
def Obligations.IllegalWordsAreRefused : Prop :=
  (∀ w : CmdWord, (∃ e, decode w = .error e) ↔
    (let op := (w.extractLsb' 32 8).toNat
     let arg := w.extractLsb' 0 32
     op = 0x00 ∨ 0x10 ≤ op ∨
     (op ∈ [0x01, 0x02, 0x05, 0x06, 0x08, 0x0A, 0x0C, 0x0D, 0x0E, 0x0F] ∧ arg ≠ 0#32) ∨
     (op ∈ [0x04, 0x07, 0x09] ∧ arg.extractLsb' 8 24 ≠ 0#24))) ∧
  (∀ (w : CmdWord) (e : Illegal) (s : State) (rest : List HostAct),
    decode w = .error e → s.host = .cmd w :: rest → step s = .next (refusedWith { s with host := rest } 1#4))

/-- 30_encoding.md section 1: `st` is bits 35:32 and `val` bits 31:0 of a response, and every command gives exactly one
response, whose `st` is 0 to 4 and whose `val` is 0 when it refuses, or accepts a command that neither reads nor
judges. -/
def Obligations.EveryCommandAnswersOnce : Prop :=
  ∀ (w : CmdWord) (s t : State) (rest : List HostAct), s.host = .cmd w :: rest → step s = .next t →
    t.host = rest ∧ ∃ (st : BitVec 4) (val : Word), t.rsps = s.rsps ++ [st ++ val] ∧
      rspSt (st ++ val) = st ∧ rspVal (st ++ val) = val ∧ st.toNat ≤ 4 ∧ (st ≠ 0#4 → val = 0#32) ∧
      (∀ i, decode w = .ok i → i.mnemonic ∈ ["TINIT", "SEED", "LDACC", "EXTB", "FSTART", "FBYTE"] → val = 0#32)

/-! ## The step, reset and the host -/

/-- 00_scope.md R7, 30_encoding.md R52: when the host's next word decodes to `i`, the step is `exec i` with that word
taken from the host's acts. -/
def Obligations.StepRunsTheDecodedCommand : Prop :=
  ∀ (w : CmdWord) (i : Instr) (s : State) (rest : List HostAct),
    decode w = .ok i → s.host = .cmd w :: rest → step s = exec i { s with host := rest }

/-- The word the interface places is the next command, and nothing else of the machine changes with it (log 10). -/
def Obligations.FetchWordIsRunNext : Prop :=
  ∀ (i : Instr) (s : State), step (s.withFetchWord 40 (encode i).toNat) = exec i s

/-- 70_reset_and_hazards.md R141, between commands or with a command in flight: every element at its reset value, no
response. That the responses and acts of the host stay is the model's choice (log 1, 2, 4). -/
def Obligations.HostResetRestoresEveryElement : Prop :=
  ∀ (a : HostAct) (s : State) (rest : List HostAct), a.isReset = true → s.host = a :: rest →
    step s = .next { block := Block.reset, host := rest, rsps := s.rsps }

/-- When the host issues nothing, nothing changes (00_scope.md section 6, "Nothing in the block changes between
commands"; that a step is taken at all is the model's choice, log 3). -/
def Obligations.NothingChangesBetweenCommands : Prop :=
  ∀ s : State, s.host = [] → step s = .next s

/-- 10_state.md R23: the value of every element after reset; the table gives no entry a value (its part in the model
is log 5's choice). -/
def Obligations.ResetValues : Prop :=
  let b := State.reset.block
  b.tv = false ∧ b.acc = 0xFFFFFFFF#32 ∧ b.phase = .idle ∧ b.fcnt = 0#32 ∧ b.hsok = true ∧ b.win = 0#32 ∧
  b.vacc = 0xFFFFFFFF#32 ∧ b.verdict = .none ∧ b.rxcrc = 0#32 ∧ b.excrc = 0#32 ∧ b.err = false ∧
  (∀ i, tblRead b.table i = none) ∧ statusWord b = 0x00000004#32

/-! ## Invariants (10_state.md R24) and whole-machine rules -/

/-- The invariants of 10_state.md section 10 hold after reset. -/
def Obligations.ResetMeetsInvariants : Prop :=
  ∀ acts : List HostAct, Inv { State.reset with host := acts }

/-- The invariants of 10_state.md section 10 are kept by every step. -/
def Obligations.StepKeepsInvariants : Prop :=
  ∀ s t : State, Inv s → step s = .next t → Inv t

/-- "These hold in every state reachable from reset by any sequence of commands" (10_state.md section 10). -/
def Obligations.ReachableStatesMeetInvariants : Prop :=
  ∀ t : State, Reachable t → Inv t

/-- 00_scope.md R7: the step is total. The invariant rules out states whose table is not built though `TV` says so,
which no run reaches; the model stops there (log 5). -/
def Obligations.StepNeverStops : Prop :=
  ∀ s : State, Inv s → ∃ t, step s = .next t

/-- 10_state.md R13, section 10 item 2, 60_exceptions.md R127: `TV` and `ERR` go from 1 to 0 by reset only. -/
def Obligations.TableValidAndErrorAreSticky : Prop :=
  ∀ (a : HostAct) (s t : State) (rest : List HostAct), s.host = a :: rest → a.isReset = false →
    step s = .next t → (s.block.tv = true → t.block.tv = true) ∧ (s.block.err = true → t.block.err = true)

/-- 20_memory.md R32: once the table is built, no act but reset changes what any index reads as. -/
def Obligations.BuiltTableNeverChanges : Prop :=
  ∀ (a : HostAct) (s t : State) (rest : List HostAct), Inv s → s.block.tv = true → s.host = a :: rest →
    a.isReset = false → step s = .next t → ∀ i, tblRead t.block.table i = tblRead s.block.table i

/-- 60_exceptions.md R124: a command word that is refused, because it is illegal or by its command, sets `ERR`, answers
value 0, and changes nothing else. -/
def Obligations.RefusalChangesOnlyErr : Prop :=
  ∀ (w : CmdWord) (s t : State) (rest : List HostAct), s.host = .cmd w :: rest → step s = .next t →
    (∃ (st : BitVec 4) (val : Word), st ≠ 0#4 ∧ t.rsps = s.rsps ++ [st ++ val]) →
    ∃ st : BitVec 4, 1 ≤ st.toNat ∧ st.toNat ≤ 4 ∧
      t = { block := { s.block with err := true }, host := rest, rsps := s.rsps ++ [st ++ 0#32] }

/-- 60_exceptions.md sections 1 and 5: an accepted command, whatever its verdict, leaves `ERR` as it was. -/
def Obligations.AcceptedCommandKeepsErr : Prop :=
  ∀ (i : Instr) (s t : State) (val : Word), exec i s = .next t → t.rsps = s.rsps ++ [0#4 ++ val] →
    t.block.err = s.block.err

/-- 70_reset_and_hazards.md R152, 60_exceptions.md R127: over a run without reset from a state without error, `ERR`
is 0 at the end exactly when every response of the run was `OK`. -/
def Obligations.ErrTellsWhetherAnyCommandWasRefused : Prop :=
  ∀ (acts rest : List HostAct) (s t : State), NoProtocolError s → s.host = acts ++ rest →
    (∀ a ∈ acts, a.isReset = false) → RunsTo acts.length s t →
    ∃ rs : List RspWord, t.rsps = s.rsps ++ rs ∧ rs.length = acts.length ∧
      (NoProtocolError t ↔ ∀ r ∈ rs, rspSt r = 0#4)

/-- The complete table of outcomes of 60_exceptions.md section 3: the status each command answers with. -/
def Obligations.OutcomeTable : Prop :=
  ∀ (i : Instr) (s : State), TableBuilt s.block →
    ∃ (t : State) (val : Word), exec i s = .next t ∧
      t.rsps = s.rsps ++ [outcomeStatus i s.block ++ val]

/-- The matrix of 10_state.md section 8: what each command leaves unchanged. Every element but those the matrix marks
as written stays, for every outcome; every index of the table reads as before unless the command is `TINIT`. -/
def Obligations.CommandsWriteOnlyWhatTheMatrixSays : Prop :=
  ∀ (i : Instr) (s t : State), exec i s = .next t →
    t.host = s.host ∧
    (i.mnemonic ∉ ["TINIT"] → t.block.table = s.block.table ∧
      (∀ k, tblRead t.block.table k = tblRead s.block.table k) ∧ t.block.tv = s.block.tv) ∧
    (i.mnemonic ∉ ["SEED", "LDACC", "EXTB"] → t.block.acc = s.block.acc) ∧
    (i.mnemonic ∉ ["FSTART", "FENDC", "FENDP"] → t.block.phase = s.block.phase) ∧
    (i.mnemonic ∉ ["FSTART", "FBYTE"] → t.block.fcnt = s.block.fcnt ∧ t.block.hsok = s.block.hsok ∧
      t.block.win = s.block.win ∧ t.block.vacc = s.block.vacc) ∧
    (i.mnemonic ∉ ["FENDC", "FENDP"] → t.block.verdict = s.block.verdict ∧ t.block.rxcrc = s.block.rxcrc ∧
      t.block.excrc = s.block.excrc) ∧
    (i.mnemonic ∉ ["EXTB", "RDTBL", "FBYTE", "FENDC", "FENDP"] → t.block.err = s.block.err)

/-- 20_memory.md R37, "No read has a side effect": an accepted reading command changes nothing of the block; a
refused one (`RDTBL` without a table) sets `ERR` alone. -/
def Obligations.ReadingCommandsHaveNoSideEffect : Prop :=
  ∀ (i : Instr) (s t : State), i.mnemonic ∈ ["RDTBL", "RDACC", "FINAL", "RDST", "RDRX", "RDEX", "RDLEN"] →
    exec i s = .next t →
    t.block = s.block ∨ (s.block.tv = false ∧ (∃ k, i = .rdtbl k) ∧ t = refusedWith s 2#4)

/-- 10_state.md R11: no validator command reads or writes `ACC`, so its outcome is the same whatever `ACC` holds. -/
def Obligations.ValidatorNeverReadsAcc : Prop :=
  ∀ (i : Instr) (s t : State) (a : Word), i.mnemonic ∈ ["FSTART", "FBYTE", "FENDC", "FENDP"] →
    exec i s = .next t →
    t.block.acc = s.block.acc ∧
    exec i { s with block := { s.block with acc := a } } = .next { t with block := { t.block with acc := a } }

/-- 10_state.md R11: no engine command reads or writes `VACC`, so its outcome is the same whatever `VACC` holds. -/
def Obligations.EngineNeverReadsVacc : Prop :=
  ∀ (i : Instr) (s t : State) (a : Word),
    i.mnemonic ∈ ["TINIT", "SEED", "LDACC", "EXTB", "FINAL", "RDACC", "RDTBL"] → exec i s = .next t →
    t.block.vacc = s.block.vacc ∧
    exec i { s with block := { s.block with vacc := a } } = .next { t with block := { t.block with vacc := a } }

/-- 70_reset_and_hazards.md R142: while `TV` is 0 no command observes the table: with any contents the command
completes and answers the same, and what `TINIT` builds reads the same. -/
def Obligations.UnbuiltTableIsUnobservable : Prop :=
  ∀ (i : Instr) (s : State) (m : Memory), s.block.tv = false →
    ∃ t u : State, exec i s = .next t ∧ exec i { s with block := { s.block with table := m } } = .next u ∧
      u = { t with block := { t.block with table := u.block.table } } ∧
      (t.block.tv = true → ∀ k, tblRead u.block.table k = tblRead t.block.table k)

/-- 10_state.md R15: `VERDICT` keeps its value through every command but an accepted `FENDC` or `FENDP`, and one of
those never leaves it at `V_NONE`. -/
def Obligations.VerdictIsWrittenByFrameEndOnly : Prop :=
  ∀ (i : Instr) (s t : State), exec i s = .next t →
    (t.block.verdict = s.block.verdict ∨
      ((i = .fendc ∨ ∃ v, i = .fendp v) ∧ ∃ v : Word, t.rsps = s.rsps ++ [0#4 ++ v])) ∧
    ((i = .fendc ∨ ∃ v, i = .fendp v) → s.block.phase = .opened → t.block.verdict ≠ .none)

/-- 41_frame_validator.md R109: the phase machine. `FSTART` opens a frame, restarted from nothing if one was open; a
frame end closes it; reset puts the machine in IDLE; a refused command or word leaves the phase. -/
def Obligations.PhaseMachine : Prop :=
  (∀ s : State, State.reset.block.phase = .idle ∧ s.resetBlock.block.phase = .idle) ∧
  (∀ (w : CmdWord) (e : Illegal) (s : State) (rest : List HostAct), decode w = .error e → s.host = .cmd w :: rest →
    ∃ t, step s = .next t ∧ t.block.phase = s.block.phase) ∧
  ∀ (i : Instr) (s t : State), exec i s = .next t →
    (match i with
      | .fstart =>
        t.block.phase = .opened ∧ t.block.fcnt = 0#32 ∧ t.block.hsok = true ∧ t.block.win = 0#32 ∧
        t.block.vacc = 0xFFFFFFFF#32
      | .fendc | .fendp _ =>
        t.block.phase = .idle ∧ (s.block.phase = .idle → t = refusedWith s 3#4)
      | .fbyte _ =>
        t.block.phase = s.block.phase ∧
        (s.block.phase = .idle → t = refusedWith s (if s.block.tv = false then 2#4 else 3#4)) ∧
        (s.block.phase = .opened →
          (∃ v : Word, t.rsps = s.rsps ++ [0#4 ++ v]) ∨ t = refusedWith s 2#4 ∨ t = refusedWith s 4#4)
      | .tinit | .seed | .ldacc _ | .extb _ | .final | .rdacc | .rdtbl _ | .rdst | .rdrx | .rdex | .rdlen =>
        t.block.phase = s.block.phase)

/-! ## The engine's commands (40_crc_engine.md) -/

/-- 40_crc_engine.md R70: `TINIT` is accepted in every state, every index then reads as `tbl` of itself, `TV` is 1,
and nothing else of the block changes; on a built table it leaves the block exactly as it was ("idempotent if called
again"). -/
def Obligations.TinitBuildsTheTable : Prop :=
  encode .tinit = 0x0100000000#40 ∧
  (∀ s : State, ∃ m : Memory, exec .tinit s = .next (answered s { s.block with table := m, tv := true } 0#32) ∧
    ∀ i : Byte, tblRead m i = some (tbl i)) ∧
  (∀ s : State, Inv s → s.block.tv = true → exec .tinit s = .next (answered s s.block 0#32))

/-- 40_crc_engine.md R71: `SEED` puts all-ones in `ACC`, in every state, and changes nothing else. -/
def Obligations.SeedStartsAComputation : Prop :=
  encode .seed = 0x0200000000#40 ∧
  ∀ s : State, exec .seed s = .next (answered s { s.block with acc := 0xFFFFFFFF#32 } 0#32)

/-- 40_crc_engine.md R72: `LDACC v` puts `v` in `ACC`, in every state, and changes nothing else. -/
def Obligations.LdaccLoadsTheAccumulator : Prop :=
  ∀ (v : Word) (s : State), encode (.ldacc v) = 0x03#8 ++ v ∧
    exec (.ldacc v) s = .next (answered s { s.block with acc := v } 0#32)

/-- 40_crc_engine.md R73: with the table built, `EXTB b` puts `crc_step(ACC, b)` in `ACC` and changes nothing else;
without it, the command is refused `E_NOTBL`. -/
def Obligations.ExtbExtendsByOneByte : Prop :=
  ∀ (b : Byte) (s : State),
    encode (.extb b) = 0x04#8 ++ 0#24 ++ b ∧
    (TableBuilt s.block → s.block.tv = true →
      exec (.extb b) s = .next (answered s { s.block with acc := crcStep s.block.acc b } 0#32)) ∧
    (s.block.tv = false → exec (.extb b) s = .next (refusedWith s 2#4))

/-- 40_crc_engine.md R74: `FINAL` answers `ACC` XOR all-ones, in every state, and changes nothing. -/
def Obligations.FinalReadsTheChecksum : Prop :=
  encode .final = 0x0500000000#40 ∧
  ∀ s : State, exec .final s = .next (answered s s.block (s.block.acc ^^^ 0xFFFFFFFF#32))

/-- 40_crc_engine.md R75: `RDACC` answers `ACC`, in every state, and changes nothing. -/
def Obligations.RdaccReadsTheAccumulator : Prop :=
  encode .rdacc = 0x0600000000#40 ∧
  ∀ s : State, exec .rdacc s = .next (answered s s.block s.block.acc)

/-- 40_crc_engine.md R76, 20_memory.md R31: with the table built, `RDTBL i` answers `tbl(i)`; without it, the command
is refused `E_NOTBL`. -/
def Obligations.RdtblReadsAnEntry : Prop :=
  ∀ (i : Byte) (s : State),
    encode (.rdtbl i) = 0x07#8 ++ 0#24 ++ i ∧
    (TableBuilt s.block → s.block.tv = true → exec (.rdtbl i) s = .next (answered s s.block (tbl i))) ∧
    (s.block.tv = false → exec (.rdtbl i) s = .next (refusedWith s 2#4))

/-! ## The validator's commands (41_frame_validator.md) -/

/-- 41_frame_validator.md R100: `FSTART`, accepted in every state, puts the validator at the start of a frame and
changes nothing else. -/
def Obligations.FstartOpensAFrame : Prop :=
  encode .fstart = 0x0800000000#40 ∧
  ∀ s : State, exec .fstart s = .next (answered s { s.block with
    phase := .opened, fcnt := 0#32, hsok := true, win := 0#32, vacc := 0xFFFFFFFF#32 } 0#32)

/-- 41_frame_validator.md R101. With the table built, a frame open and the counter not full, `FBYTE` is accepted: the
byte enters the window, the counter goes up by one without wrapping, the byte that leaves the window (from the fifth
byte on) advances `VACC`, and a wrong preamble byte clears `HSOK`; nothing else changes. Otherwise it is refused, with
the first error of `E_NOTBL`, `E_SEQ`, `E_LEN` that applies. -/
def Obligations.FbyteTakesTheNextByte : Prop :=
  ∀ (b : Byte) (s : State),
    encode (.fbyte b) = 0x09#8 ++ 0#24 ++ b ∧
    (TableBuilt s.block → s.block.tv = true → s.block.phase = .opened → s.block.fcnt ≠ 0xFFFFFFFF#32 →
      (s.block.fcnt + 1#32).toNat = s.block.fcnt.toNat + 1 ∧
      exec (.fbyte b) s = .next (answered s { s.block with
        vacc := if 4 ≤ s.block.fcnt.toNat then crcStep s.block.vacc (s.block.win.extractLsb' 24 8) else s.block.vacc
        hsok := if s.block.fcnt.toNat < 8 ∧ preamble[s.block.fcnt.toNat]? ≠ some b then false else s.block.hsok
        win := (s.block.win <<< 8) ||| b.setWidth 32
        fcnt := s.block.fcnt + 1#32 } 0#32)) ∧
    (s.block.tv = false → exec (.fbyte b) s = .next (refusedWith s 2#4)) ∧
    (s.block.tv = true → s.block.phase = .idle → exec (.fbyte b) s = .next (refusedWith s 3#4)) ∧
    (s.block.tv = true → s.block.phase = .opened → s.block.fcnt = 0xFFFFFFFF#32 →
      exec (.fbyte b) s = .next (refusedWith s 4#4))

/-- 41_frame_validator.md R102: `FENDC` with a frame open, by its three cases, and without one. -/
def Obligations.FendcJudgesAgainstTheComputedCrc : Prop :=
  encode .fendc = 0x0A00000000#40 ∧
  ∀ s : State,
    (s.block.phase = .idle → exec .fendc s = .next (refusedWith s 3#4)) ∧
    (s.block.phase = .opened →
      (s.block.fcnt.toNat < 8 →
        exec .fendc s = .next (answered s { s.block with verdict := .short, phase := .idle } 2#32)) ∧
      (8 ≤ s.block.fcnt.toNat → s.block.hsok = false →
        exec .fendc s = .next (answered s { s.block with verdict := .hs, phase := .idle } 3#32)) ∧
      (8 ≤ s.block.fcnt.toNat → s.block.hsok = true →
        exec .fendc s = .next (answered s { s.block with
          rxcrc := s.block.win, excrc := s.block.vacc ^^^ 0xFFFFFFFF#32, phase := .idle
          verdict := if s.block.win = s.block.vacc ^^^ 0xFFFFFFFF#32 then .ok else .crc }
          (if s.block.win = s.block.vacc ^^^ 0xFFFFFFFF#32 then 1#32 else 4#32))))

/-- 41_frame_validator.md R103: `FENDP v` is `FENDC` with the expected CRC supplied. -/
def Obligations.FendpJudgesAgainstTheSuppliedCrc : Prop :=
  ∀ (v : Word) (s : State),
    encode (.fendp v) = 0x0B#8 ++ v ∧
    (s.block.phase = .idle → exec (.fendp v) s = .next (refusedWith s 3#4)) ∧
    (s.block.phase = .opened →
      (s.block.fcnt.toNat < 8 →
        exec (.fendp v) s = .next (answered s { s.block with verdict := .short, phase := .idle } 2#32)) ∧
      (8 ≤ s.block.fcnt.toNat → s.block.hsok = false →
        exec (.fendp v) s = .next (answered s { s.block with verdict := .hs, phase := .idle } 3#32)) ∧
      (8 ≤ s.block.fcnt.toNat → s.block.hsok = true →
        exec (.fendp v) s = .next (answered s { s.block with
          rxcrc := s.block.win, excrc := v, phase := .idle
          verdict := if s.block.win = v then .ok else .crc }
          (if s.block.win = v then 1#32 else 4#32))))

/-- 41_frame_validator.md R104, 10_state.md R14: `RDST` answers `STATUS`, field by field, and changes nothing; after reset
`STATUS` reads 0x00000004. -/
def Obligations.RdstReadsStatus : Prop :=
  encode .rdst = 0x0C00000000#40 ∧
  (statusWord State.reset.block = 0x00000004#32) ∧
  ∀ s : State, ∃ v : Word, exec .rdst s = .next (answered s s.block v) ∧
    v.getLsbD 0 = s.block.tv ∧ v.getLsbD 1 = (s.block.phase == .opened) ∧ v.getLsbD 2 = s.block.hsok ∧
    v.getLsbD 3 = s.block.err ∧
    v.extractLsb' 4 3 = (match s.block.verdict with
      | .none => 0#3 | .ok => 1#3 | .short => 2#3 | .hs => 3#3 | .crc => 4#3) ∧
    v.extractLsb' 7 25 = 0#25

/-- 41_frame_validator.md R105, R106, R107: the three result registers. -/
def Obligations.ResultRegistersAreRead : Prop :=
  encode .rdrx = 0x0D00000000#40 ∧ encode .rdex = 0x0E00000000#40 ∧ encode .rdlen = 0x0F00000000#40 ∧
  ∀ s : State,
    exec .rdrx s = .next (answered s s.block s.block.rxcrc) ∧
    exec .rdex s = .next (answered s s.block s.block.excrc) ∧
    exec .rdlen s = .next (answered s s.block s.block.fcnt)

/-! ## The functions (40_crc_engine.md sections 1 and 2, 41_frame_validator.md section 2) -/

/-- 00_scope.md R2: the check values. -/
def Obligations.CheckValues : Prop :=
  compute [] = 0x00000000#32 ∧
  compute [0x31#8, 0x32#8, 0x33#8, 0x34#8, 0x35#8, 0x36#8, 0x37#8, 0x38#8, 0x39#8] = 0xCBF43926#32

/-- 40_crc_engine.md R67: extension over a split, and the same of `compute`. -/
def Obligations.ExtendSplits : Prop :=
  (∀ (a : Word) (d e : List Byte), extend a (d ++ e) = extend (extend a d) e) ∧
  (∀ d e : List Byte, compute (d ++ e) = extend (extend 0xFFFFFFFF#32 d) e ^^^ 0xFFFFFFFF#32)

/-- The bit-serial form (40_crc_engine.md section 2). -/
def Obligations.TableStepIsEightBitSteps : Prop :=
  ∀ (a : Word) (b : Byte), crcStep a b = bitSteps 8 (a ^^^ b.setWidth 32)

/-- The table facts (40_crc_engine.md section 2): linearity, distinct entries and top bytes, and what they give for
`crc_step`. -/
def Obligations.TableFacts : Prop :=
  tbl 0#8 = 0#32 ∧
  (∀ i j : Byte, tbl (i ^^^ j) = tbl i ^^^ tbl j) ∧
  (∀ i j : Byte, (tbl i).extractLsb' 24 8 = (tbl j).extractLsb' 24 8 → i = j) ∧
  (∀ (a a' : Word) (b b' : Byte), crcStep (a ^^^ a') (b ^^^ b') = crcStep a b ^^^ crcStep a' b') ∧
  (∀ b : Byte, Function.Bijective fun a => crcStep a b) ∧
  (∀ a : Word, Function.Injective (crcStep a))

/-- 41_frame_validator.md R99 (a): every frame the reference builder makes is good. -/
def Obligations.BuiltFramesValidate : Prop :=
  ∀ p : List Byte, validate (mkframe p) none = .good (compute (preamble ++ p)) (compute (preamble ++ p))

/-- 41_frame_validator.md R99 (b): one flipped bit in the payload or trailer of a built frame is a `CrcMismatch`. -/
def Obligations.FlippedBitAfterPreambleIsCrcMismatch : Prop :=
  ∀ (p : List Byte) (j : Nat), 64 ≤ j → j < 8 * (p.length + 12) →
    (validate (flipBit j (mkframe p)) none).verdict = .crc

/-- 41_frame_validator.md R99 (c): one flipped bit in the preamble of a built frame is a `BadHandshake`, whatever
checksum is supplied. -/
def Obligations.FlippedBitInPreambleIsBadHandshake : Prop :=
  ∀ (p : List Byte) (j : Nat) (c : Option Word), j < 64 → validate (flipBit j (mkframe p)) c = .badHandshake

/-- 41_frame_validator.md section 2 (lengths 8 to 11): with a computed checksum a frame is good exactly when it is
well-formed, and a frame of 8 to 11 bytes with a good preamble is always a `CrcMismatch`. -/
def Obligations.GoodFramesAreWellFormed : Prop :=
  (∀ f : List Byte, (validate f none).verdict = .ok ↔ wellFormedFrame f) ∧
  (∀ f : List Byte, 8 ≤ f.length → f.length ≤ 11 → f.take 8 = preamble → (validate f none).verdict = .crc)

/-- 41_frame_validator.md R98: a supplied checksum takes the place of the computed one and nothing else changes. For
every sequence that reaches the comparison and every supplied value, equal or not to the received or the computed one,
the outcome is the comparison of the received value with the supplied one, reporting those two. -/
def Obligations.SuppliedCrcReplacesComputedCrc : Prop :=
  (∀ f : List Byte, 8 ≤ f.length → validate f (some (compute (f.take (f.length - 4)))) = validate f none) ∧
  (∀ (f : List Byte) (p : Option Word), f.length < 8 → validate f p = .short) ∧
  (∀ (f : List Byte) (p : Option Word), 8 ≤ f.length → f.take 8 ≠ preamble → validate f p = .badHandshake) ∧
  (∀ (f : List Byte) (v : Word), 8 ≤ f.length → f.take 8 = preamble →
    validate f (some v) =
      if be32 (f.drop (f.length - 4)) = v then .good (be32 (f.drop (f.length - 4))) v
      else .mismatch (be32 (f.drop (f.length - 4))) v) ∧
  (∀ (f : List Byte) (v r e : Word), validate f none = .good r e → v ≠ e → validate f (some v) = .mismatch r v) ∧
  (∀ (f : List Byte) (r e : Word), validate f none = .mismatch r e → validate f (some r) = .good r r)

/-! ## Command sequences against the functions -/

/-- 40_crc_engine.md section 4: over any acts of the host without reset, `SEED` and `LDACC`, in a state with a built
table, `ACC` ends as `extend` of the bytes the `EXTB` commands carried, and every `EXTB` answered `(OK, 0)`. -/
def Obligations.ExtbCommandsComputeExtend : Prop :=
  ∀ (acts rest : List HostAct) (s : State), Inv s → s.block.tv = true → s.host = acts ++ rest →
    (∀ a ∈ acts, a.keepsComputation = true) →
    ∃ (t : State) (rs : List RspWord), RunsTo acts.length s t ∧ t.host = rest ∧
      t.block.acc = extend s.block.acc (extbBytes acts) ∧ t.rsps = s.rsps ++ rs ∧
      List.Forall₂ (fun a r => ∀ b, a.command? = some (.extb b) → r = 0#36) acts rs

/-- 30_encoding.md R54 `COMPUTE`, 40_crc_engine.md section 4: `SEED`, one `EXTB` per byte and `FINAL` answer
`(OK, compute(d))` last, `(OK, 0)` before, and change only `ACC`. -/
def Obligations.ComputeSequenceAnswersCompute : Prop :=
  ∀ (d : List Byte) (rest : List HostAct) (s : State), TableBuilt s.block → s.block.tv = true →
    s.host = .cmd (encode .seed) :: (d.map fun b => .cmd (encode (.extb b))) ++ .cmd (encode .final) :: rest →
    RunsTo (d.length + 2) s
      { block := { s.block with acc := extend 0xFFFFFFFF#32 d }
        host := rest
        rsps := s.rsps ++ List.replicate (d.length + 1) 0#36 ++ [0#4 ++ compute d] }

/-- 40_crc_engine.md section 4: a computation saved after `A` is resumed by `LDACC` with the saved accumulator, and
`EXTB` over `B` and `FINAL` then answer `compute(A ++ B)`. -/
def Obligations.SavedComputationIsResumed : Prop :=
  ∀ (d e : List Byte) (rest : List HostAct) (s : State), TableBuilt s.block → s.block.tv = true →
    s.host = .cmd (encode (.ldacc (extend 0xFFFFFFFF#32 d))) ::
      (e.map fun b => .cmd (encode (.extb b))) ++ .cmd (encode .final) :: rest →
    RunsTo (e.length + 2) s
      { block := { s.block with acc := extend 0xFFFFFFFF#32 (d ++ e) }
        host := rest
        rsps := s.rsps ++ List.replicate (e.length + 1) 0#36 ++ [0#4 ++ compute (d ++ e)] }

/-- 41_frame_validator.md section 4, the streaming invariant: after `FSTART` and any acts without reset, `FSTART` and
frame-end commands, the block holds the frame the `FBYTE` commands carried, and each of those answered `(OK, 0)`. -/
def Obligations.FbyteCommandsTrackTheFrame : Prop :=
  ∀ (acts rest : List HostAct) (s : State), Inv s → s.block.tv = true →
    s.host = .cmd (encode .fstart) :: acts ++ rest → (∀ a ∈ acts, a.keepsFrame = true) →
    (fbyteBytes acts).length ≤ 4294967295 →
    ∃ (t : State) (rs : List RspWord), RunsTo (acts.length + 1) s t ∧ t.host = rest ∧
      FrameTaken (fbyteBytes acts) t.block ∧ t.rsps = s.rsps ++ 0#36 :: rs ∧
      List.Forall₂ (fun a r => ∀ b, a.command? = some (.fbyte b) → r = 0#36) acts rs

/-- 41_frame_validator.md section 4, the equivalence: ending such a frame with `FENDC` answers the verdict of
`validate(f, none)`, with `FENDP v` that of `validate(f, some(v))`, closes the frame, and leaves `RXCRC` and `EXCRC`
equal to the judgement's checksums where it has any and as they were where it has none. -/
def Obligations.FrameEndAnswersValidate : Prop :=
  ∀ (acts rest : List HostAct) (s : State) (p : Option Word), Inv s → s.block.tv = true →
    s.host = .cmd (encode .fstart) :: acts ++
      .cmd (encode (match p with | none => .fendc | some v => .fendp v)) :: rest →
    (∀ a ∈ acts, a.keepsFrame = true) → (fbyteBytes acts).length ≤ 4294967295 →
    ∃ (t : State) (rs : List RspWord), RunsTo (acts.length + 2) s t ∧ t.host = rest ∧ t.block.phase = .idle ∧
      t.block.verdict = (validate (fbyteBytes acts) p).verdict ∧
      t.rsps = s.rsps ++ rs ++ [0#4 ++ (validate (fbyteBytes acts) p).verdict.code.setWidth 32] ∧
      rs.length = acts.length + 1 ∧ t.block.fcnt.toNat = (fbyteBytes acts).length ∧
      (t.block.rxcrc, t.block.excrc) =
        (validate (fbyteBytes acts) p).checksums.getD (s.block.rxcrc, s.block.excrc)

/-- 40_crc_engine.md section 4, one step of it: in a state with a built table, an act that is no reset, `SEED` or
`LDACC` takes `ACC` to `extend` of it by the byte of that act if it is an `EXTB`, which answers `(OK, 0)`, and leaves
`ACC` otherwise. -/
def Obligations.EachActAdvancesTheComputation : Prop :=
  ∀ (a : HostAct) (rest : List HostAct) (s : State), Inv s → s.block.tv = true → s.host = a :: rest →
    a.keepsComputation = true →
    ∃ (t : State) (r : RspWord), step s = .next t ∧ t.host = rest ∧
      t.block.acc = extend s.block.acc (extbBytes [a]) ∧ t.rsps = s.rsps ++ [r] ∧
      (∀ b, a.command? = some (.extb b) → r = 0#36)

/-- 41_frame_validator.md section 4, one step of it: in a state with a built table whose block holds the open frame
`f`, an act that is no reset, `FSTART` or frame end leaves the block holding `f` with the byte of that act if it is an
`FBYTE`, which answers `(OK, 0)`, and holding `f` otherwise; an `FBYTE` past 2^32 - 1 bytes is refused `E_LEN` and the
block still holds `f`. -/
def Obligations.EachActAdvancesTheFrame : Prop :=
  ∀ (a : HostAct) (rest : List HostAct) (s : State) (f : List Byte), Inv s → s.block.tv = true →
    FrameTaken f s.block → s.host = a :: rest → a.keepsFrame = true →
    ∃ (t : State) (r : RspWord), step s = .next t ∧ t.host = rest ∧ t.rsps = s.rsps ++ [r] ∧
      (f.length + (fbyteBytes [a]).length ≤ 4294967295 →
        FrameTaken (f ++ fbyteBytes [a]) t.block ∧ (∀ b, a.command? = some (.fbyte b) → r = 0#36)) ∧
      (4294967295 < f.length + (fbyteBytes [a]).length → FrameTaken f t.block ∧ r = 4#4 ++ 0#32)
end

