-- ==== Sys2Proof/Laws/Decode.lean ====
section
/-! SUPPORT. The fields of a command word, and the decoder against the well-formedness checks. -/

namespace Sys2Proof

@[simp] theorem word_op (op : BitVec 8) (arg : Word) :
    BitVec.extractLsb' 32 8 (op ++ arg : CmdWord) = op := by
  refine BitVec.eq_of_getLsbD_eq fun i hi => ?_
  have h : BitVec.getLsbD (w := 8 + 32) (op ++ arg) (32 + i) = op.getLsbD i := by
    rw [BitVec.getLsbD_append, if_neg (by omega), Nat.add_sub_cancel_left]
  rw [BitVec.getLsbD_extractLsb', decide_eq_true hi, Bool.true_and]
  exact h

@[simp] theorem word_arg (op : BitVec 8) (arg : Word) :
    BitVec.extractLsb' 0 32 (op ++ arg : CmdWord) = arg := by
  refine BitVec.eq_of_getLsbD_eq fun i hi => ?_
  have h : BitVec.getLsbD (w := 8 + 32) (op ++ arg) (0 + i) = arg.getLsbD i := by
    rw [BitVec.getLsbD_append, if_pos (by omega), Nat.zero_add]
  rw [BitVec.getLsbD_extractLsb', decide_eq_true hi, Bool.true_and]
  exact h

/-- A word is its two fields (30_encoding.md R45). -/
theorem word_eta (w : CmdWord) :
    (BitVec.extractLsb' 32 8 w ++ BitVec.extractLsb' 0 32 w : CmdWord) = w := by
  refine BitVec.eq_of_getLsbD_eq fun i hi => ?_
  have h : BitVec.getLsbD (w := 8 + 32) (BitVec.extractLsb' 32 8 w ++ BitVec.extractLsb' 0 32 w) i =
      w.getLsbD i := by
    rw [BitVec.getLsbD_append]
    by_cases h1 : i < 32
    · simp [h1]
    · simp [h1, show i - 32 < 8 by omega, show 32 + (i - 32) = i by omega]
  exact h

@[simp] theorem byte_of_setWidth (b : Byte) : (b.setWidth 32).extractLsb' 0 8 = b := by
  refine BitVec.eq_of_getLsbD_eq fun i hi => ?_
  simp [hi, show i < 32 by omega]

@[simp] theorem top_of_setWidth (b : Byte) : (b.setWidth 32).extractLsb' 8 24 = 0#24 := by
  refine BitVec.eq_of_getLsbD_eq fun i hi => ?_
  simp

/-- A word with no bit of `arg[31:8]` set carries its byte zero-extended. -/
theorem setWidth_of_byte (a : Word) (h : a.extractLsb' 8 24 = 0#24) : (a.extractLsb' 0 8).setWidth 32 = a := by
  refine BitVec.eq_of_getLsbD_eq fun i hi => ?_
  have hi' : i < 32 := hi
  by_cases h1 : i < 8
  · simp [h1, hi']
  · have h2 := congrArg (fun v => BitVec.getLsbD v (i - 8)) h
    simp only [BitVec.getLsbD_extractLsb', show i - 8 < 24 by omega, decide_true, Bool.true_and,
      show 8 + (i - 8) = i by omega, BitVec.getLsbD_zero] at h2
    simp [h1, h2]

@[simp] theorem encode_op (i : Instr) : BitVec.extractLsb' 32 8 (encode i) = i.opcode := word_op _ _

@[simp] theorem encode_arg (i : Instr) : BitVec.extractLsb' 0 32 (encode i) = i.argument := word_arg _ _

theorem decodeNone_ok (arg : Word) (i j : Instr) : decodeNone arg i = .ok j ↔ arg = 0#32 ∧ i = j := by
  unfold decodeNone; split <;> simp_all

theorem decodeByte_ok (arg : Word) (f : Byte → Instr) (j : Instr) :
    decodeByte arg f = .ok j ↔ arg.extractLsb' 8 24 = 0#24 ∧ f (arg.extractLsb' 0 8) = j := by
  unfold decodeByte; split <;> simp_all

/-- The decoder on two fields rejects with the check they fail, and accepts when they fail none. -/
theorem decodeFields_error (op : BitVec 8) (arg : Word) (e : Illegal) :
    decodeFields op arg = .error e ↔ fieldCheck op arg = some e := by
  have hnone : ∀ i, decodeNone arg i = .error e ↔ operandCheck .none arg = some e := by
    intro i; simp only [decodeNone, operandCheck]; split <;> simp
  have hbyte : ∀ f, decodeByte arg f = .error e ↔ operandCheck .byte arg = some e := by
    intro f; simp only [decodeByte, operandCheck]; split <;> simp
  unfold decodeFields fieldCheck
  generalize op.toNat = n
  by_cases hn : n < 16
  · interval_cases n <;> simp [formOf, hnone, hbyte, operandCheck]
  · obtain ⟨k, rfl⟩ : ∃ k, n = k + 16 := ⟨n - 16, by omega⟩
    simp [formOf]

/-- The decoder accepts exactly the well-formed words. -/
theorem wf_iff_decodes (w : CmdWord) : CmdWord.wf w = true ↔ ∃ i, decode w = .ok i := by
  have h := fun e => decodeFields_error (w.extractLsb' 32 8) (w.extractLsb' 0 32) e
  simp only [CmdWord.wf, Option.isNone_iff_eq_none, decode]
  cases hd : decodeFields (w.extractLsb' 32 8) (w.extractLsb' 0 32) with
  | ok i =>
    cases hc : fieldCheck (w.extractLsb' 32 8) (w.extractLsb' 0 32) with
    | none => simp
    | some e => have := (h e).mpr hc; rw [hd] at this; cases this
  | error e => simp [(h e).mp hd]

end Sys2Proof
end

