-- ==== Sys2Proof/Laws/Functions.lean ====
section
/-! SUPPORT. Small laws of the pure functions and of bytes and words. -/

namespace Sys2Proof.Machine

@[simp] theorem extend_nil (a : Word) : extend a [] = a := rfl

@[simp] theorem extend_cons (a : Word) (b : Byte) (d : List Byte) : extend a (b :: d) = extend (crcStep a b) d := rfl

/-- A `TblRead` that gives `tbl` of the index makes the lookup of `EXTB` and `FBYTE` a `crc_step`
(40_crc_engine.md R62). -/
theorem crcStep_eq (a : Word) (b : Byte) : (a >>> 8) ^^^ tbl (tableIndex a b) = crcStep a b := rfl

/-- `PRE[k]` of 41_frame_validator.md R91 is entry `k` of the preamble. -/
theorem preamble_getElem? : ∀ k : Fin 8, preamble[k.val]? = some (preByte k.val) := by decide

theorem preamble_length : preamble.length = 8 := rfl

@[simp] theorem pushByte_getLsbD (w : Word) (b : Byte) (i : Nat) :
    (pushByte w b).getLsbD i = if i < 8 then b.getLsbD i else (decide (i < 32) && w.getLsbD (i - 8)) := by
  by_cases h : i < 8
  · simp [pushByte, h, show i < 32 by omega]
  · simp [pushByte, h, BitVec.getLsbD_of_ge b i (by omega)]

/-- Four bytes, the first the most significant: `{d[0], d[1], d[2], d[3]}` (00_scope.md R9). -/
theorem be32_four (a b c d : Byte) : be32 [a, b, c, d] = a ++ b ++ c ++ d := by
  refine BitVec.eq_of_getLsbD_eq fun i hi => ?_
  have h : BitVec.getLsbD (w := 8 + 8 + 8 + 8) (a ++ b ++ c ++ d) i =
      if i < 8 then d.getLsbD i else if i - 8 < 8 then c.getLsbD (i - 8) else
        if i - 8 - 8 < 8 then b.getLsbD (i - 8 - 8) else a.getLsbD (i - 8 - 8 - 8) := by
    simp only [BitVec.getLsbD_append]
  refine Eq.trans ?_ h.symm
  simp only [be32, List.foldl_cons, List.foldl_nil, pushByte_getLsbD, BitVec.getLsbD_zero, Bool.and_false]
  simp [show i < 32 by omega, show i - 8 < 32 by omega, show i - 8 - 8 < 32 by omega,
    show i - 8 - 8 - 8 < 8 by omega]

/-- `be32bytes` is the inverse of `be32` (00_scope.md R9). -/
theorem be32_be32bytes (v : Word) : be32 (be32bytes v) = v := by
  refine BitVec.eq_of_getLsbD_eq fun i hi => ?_
  simp only [be32, be32bytes, List.foldl_cons, List.foldl_nil, pushByte_getLsbD, BitVec.getLsbD_extractLsb',
    BitVec.getLsbD_zero, Bool.and_false]
  by_cases h1 : i < 8
  · simp [h1]
  · by_cases h2 : i < 16
    · simp [h1, hi, show i - 8 < 8 by omega, show 8 + (i - 8) = i by omega]
    · by_cases h3 : i < 24
      · simp [h1, hi, show ¬ i - 8 < 8 by omega, show i - 8 < 32 by omega, show i - 8 - 8 < 8 by omega,
          show 16 + (i - 8 - 8) = i by omega]
      · simp [h1, hi, show ¬ i - 8 < 8 by omega, show i - 8 < 32 by omega, show ¬ i - 8 - 8 < 8 by omega,
          show i - 8 - 8 < 32 by omega, show i - 8 - 8 - 8 < 8 by omega, show 24 + (i - 8 - 8 - 8) = i by omega]

end Sys2Proof.Machine
end

