-- ==== Sys2Proof/Laws/Memory.lean ====
section
/-! SUPPORT. The laws of the table memory: read after write, the canonical form, and what `TINIT` builds. -/

namespace Sys2Proof.Machine

theorem memRead_memWrite_same (m : Memory) (i : Nat) (v : Word) : memRead (memWrite m i v) i = some v := by
  induction m with
  | nil => simp [memWrite, memRead]
  | cons c rest ih =>
    obtain ⟨k, u⟩ := c
    by_cases h1 : i < k
    · simp [memWrite, memRead, h1]
    · by_cases h2 : i = k
      · simp [memWrite, memRead, h2]
      · simp [memWrite, memRead, h1, h2, Ne.symm h2, ih]

theorem memRead_memWrite_other (m : Memory) {i j : Nat} (v : Word) (h : j ≠ i) :
    memRead (memWrite m i v) j = memRead m j := by
  induction m with
  | nil => simp [memWrite, memRead, Ne.symm h]
  | cons c rest ih =>
    obtain ⟨k, u⟩ := c
    by_cases h1 : i < k
    · simp [memWrite, memRead, h1, Ne.symm h]
    · by_cases h2 : i = k
      · subst h2; simp [memWrite, memRead, Ne.symm h]
      · simp [memWrite, memRead, h1, h2, ih]

theorem wfFrom_cons (lo k : Nat) (v : Word) (rest : Memory) :
    Memory.wfFrom lo ((k, v) :: rest) = true ↔ lo ≤ k ∧ k < 256 ∧ Memory.wfFrom (k + 1) rest = true := by
  simp only [Memory.wfFrom, Bool.and_eq_true, decide_eq_true_eq, and_assoc]

theorem wfFrom_memWrite (m : Memory) : ∀ (lo i : Nat) (v : Word), Memory.wfFrom lo m = true → lo ≤ i → i < 256 →
    Memory.wfFrom lo (memWrite m i v) = true := by
  induction m with
  | nil => intro lo i v _ h1 h2; simp [memWrite, Memory.wfFrom, h1, h2]
  | cons c rest ih =>
    intro lo i v hm h1 h2
    obtain ⟨k, u⟩ := c
    obtain ⟨hlo, hk, hr⟩ := (wfFrom_cons lo k u rest).mp hm
    by_cases h3 : i < k
    · simp only [memWrite, h3, if_true, wfFrom_cons]
      exact ⟨h1, h2, h3, hk, hr⟩
    · by_cases h4 : i = k
      · subst h4
        simp [memWrite, wfFrom_cons, h1, h2, hr]
      · simp only [memWrite, h3, h4, if_false, wfFrom_cons]
        exact ⟨hlo, hk, ih (k + 1) i v hr (by omega) h2⟩

/-- Every write of the table keeps the canonical form. -/
theorem tblWrite_keeps_wf (m : Memory) (i : Byte) (v : Word) (h : Memory.wf m = true) :
    Memory.wf (tblWrite m i v) = true :=
  wfFrom_memWrite m 0 i.toNat v h (Nat.zero_le _) i.isLt

theorem memRead_below (m : Memory) : ∀ (lo i : Nat), Memory.wfFrom lo m = true → i < lo → memRead m i = none := by
  induction m with
  | nil => intros; rfl
  | cons c rest ih =>
    intro lo i hm hi
    obtain ⟨k, u⟩ := c
    obtain ⟨hlo, _, hr⟩ := (wfFrom_cons lo k u rest).mp hm
    rw [memRead, if_neg (by omega)]
    exact ih (k + 1) i hr (by omega)

/-- No index outside the table space has a value (20_memory.md R30). -/
theorem memRead_outside (m : Memory) : ∀ (lo i : Nat), Memory.wfFrom lo m = true → 256 ≤ i → memRead m i = none := by
  induction m with
  | nil => intros; rfl
  | cons c rest ih =>
    intro lo i hm hi
    obtain ⟨k, u⟩ := c
    obtain ⟨_, hk, hr⟩ := (wfFrom_cons lo k u rest).mp hm
    rw [memRead, if_neg (by omega)]
    exact ih (k + 1) i hr hi

/-- Memories in canonical form that read the same are the same. -/
theorem eq_of_memRead_eq (m : Memory) : ∀ (m' : Memory) (lo : Nat), Memory.wfFrom lo m = true →
    Memory.wfFrom lo m' = true → (∀ i, memRead m i = memRead m' i) → m = m' := by
  induction m with
  | nil =>
    intro m' lo _ _ h
    cases m' with
    | nil => rfl
    | cons c' r' => have := h c'.1; simp [memRead] at this
  | cons c rest ih =>
    intro m' lo hm hm' h
    obtain ⟨k, u⟩ := c
    cases m' with
    | nil => have := h k; simp [memRead] at this
    | cons c' r' =>
      obtain ⟨k', u'⟩ := c'
      rw [wfFrom_cons] at hm hm'
      have hk : k = k' := by
        rcases Nat.lt_trichotomy k k' with hlt | heq | hgt
        · have := h k
          simp [memRead, show k' ≠ k by omega, memRead_below r' (k' + 1) k hm'.2.2 (by omega)] at this
        · exact heq
        · have := h k'
          simp [memRead, show k ≠ k' by omega, memRead_below rest (k + 1) k' hm.2.2 (by omega)] at this
      subst hk
      have hu : u = u' := by have := h k; simpa [memRead] using this
      subst hu
      have hrest : rest = r' := by
        refine ih r' (k + 1) hm.2.2 hm'.2.2 fun i => ?_
        by_cases hi : k = i
        · subst hi
          rw [memRead_below rest (k + 1) k hm.2.2 (by omega), memRead_below r' (k + 1) k hm'.2.2 (by omega)]
        · have := h i; simpa [memRead, hi] using this
      rw [hrest]

theorem buildEntries_keeps_wf (l : List Byte) (m : Memory) (h : Memory.wf m = true) :
    Memory.wf (buildEntries l m) = true := by
  induction l with
  | nil => exact h
  | cons i l ih => exact tblWrite_keeps_wf _ i _ ih

/-- `TINIT`'s table is in canonical form. -/
theorem buildTable_keeps_wf (m : Memory) (h : Memory.wf m = true) : Memory.wf (buildTable m) = true :=
  buildEntries_keeps_wf _ m h

theorem tblRead_tblWrite_same (m : Memory) (i : Byte) (v : Word) : tblRead (tblWrite m i v) i = some v :=
  memRead_memWrite_same m _ v

theorem tblRead_tblWrite_other (m : Memory) {i j : Byte} (v : Word) (h : j ≠ i) :
    tblRead (tblWrite m i v) j = tblRead m j :=
  memRead_memWrite_other m v fun e => h (BitVec.eq_of_toNat_eq e)

theorem tblRead_buildEntries (l : List Byte) (m : Memory) (i : Byte) (h : i ∈ l) :
    tblRead (buildEntries l m) i = some (tbl i) := by
  induction l with
  | nil => cases h
  | cons j l ih =>
    change tblRead (tblWrite (buildEntries l m) j (tbl j)) i = some (tbl i)
    by_cases hij : i = j
    · subst hij; exact tblRead_tblWrite_same _ _ _
    · rw [tblRead_tblWrite_other _ _ hij]
      exact ih ((List.mem_cons.mp h).resolve_left hij)

theorem mem_tableIndices (i : Byte) : i ∈ tableIndices := by
  rw [tableIndices, List.mem_map]
  exact ⟨i.toNat, List.mem_range.mpr i.isLt, by simp⟩

/-- After `TINIT` every index reads as `tbl` of itself (40_crc_engine.md R70, 20_memory.md R44). -/
theorem tblRead_buildTable (m : Memory) (i : Byte) : tblRead (buildTable m) i = some (tbl i) :=
  tblRead_buildEntries _ m i (mem_tableIndices i)

/-- Building a table that is built already leaves it as it was (40_crc_engine.md R70). -/
theorem buildTable_of_built (m : Memory) (hm : Memory.wf m = true) (hb : ∀ i : Byte, tblRead m i = some (tbl i)) :
    buildTable m = m := by
  refine eq_of_memRead_eq _ _ 0 (buildTable_keeps_wf m hm) hm fun i => ?_
  by_cases hi : i < 256
  · have h1 := tblRead_buildTable m (BitVec.ofNat 8 i)
    have h2 := hb (BitVec.ofNat 8 i)
    have hof : (BitVec.ofNat 8 i).toNat = i := by simp; omega
    simp only [tblRead, hof] at h1 h2
    rw [h1, h2]
  · rw [memRead_outside _ 0 i (buildTable_keeps_wf m hm) (by omega), memRead_outside _ 0 i hm (by omega)]

end Sys2Proof.Machine
end

