-- ==== Sys2Proof/Laws/State.lean ====
section
/-! SUPPORT. What each field of the state is after each update: one lemma per field and update. -/

namespace Sys2Proof.Machine

section
variable (s : State) (b : Block)

@[simp] theorem Block.withTable_table : (b.withTable).table = buildTable b.table := rfl
@[simp] theorem Block.withTable_tv : (b.withTable).tv = true := rfl
@[simp] theorem Block.withTable_acc : (b.withTable).acc = b.acc := rfl
@[simp] theorem Block.withTable_phase : (b.withTable).phase = b.phase := rfl
@[simp] theorem Block.withTable_fcnt : (b.withTable).fcnt = b.fcnt := rfl
@[simp] theorem Block.withTable_hsok : (b.withTable).hsok = b.hsok := rfl
@[simp] theorem Block.withTable_win : (b.withTable).win = b.win := rfl
@[simp] theorem Block.withTable_vacc : (b.withTable).vacc = b.vacc := rfl
@[simp] theorem Block.withTable_verdict : (b.withTable).verdict = b.verdict := rfl
@[simp] theorem Block.withTable_rxcrc : (b.withTable).rxcrc = b.rxcrc := rfl
@[simp] theorem Block.withTable_excrc : (b.withTable).excrc = b.excrc := rfl
@[simp] theorem Block.withTable_err : (b.withTable).err = b.err := rfl

@[simp] theorem Block.withAcc_table (v : Word) : (b.withAcc v).table = b.table := rfl
@[simp] theorem Block.withAcc_tv (v : Word) : (b.withAcc v).tv = b.tv := rfl
@[simp] theorem Block.withAcc_acc (v : Word) : (b.withAcc v).acc = v := rfl
@[simp] theorem Block.withAcc_phase (v : Word) : (b.withAcc v).phase = b.phase := rfl
@[simp] theorem Block.withAcc_fcnt (v : Word) : (b.withAcc v).fcnt = b.fcnt := rfl
@[simp] theorem Block.withAcc_hsok (v : Word) : (b.withAcc v).hsok = b.hsok := rfl
@[simp] theorem Block.withAcc_win (v : Word) : (b.withAcc v).win = b.win := rfl
@[simp] theorem Block.withAcc_vacc (v : Word) : (b.withAcc v).vacc = b.vacc := rfl
@[simp] theorem Block.withAcc_verdict (v : Word) : (b.withAcc v).verdict = b.verdict := rfl
@[simp] theorem Block.withAcc_rxcrc (v : Word) : (b.withAcc v).rxcrc = b.rxcrc := rfl
@[simp] theorem Block.withAcc_excrc (v : Word) : (b.withAcc v).excrc = b.excrc := rfl
@[simp] theorem Block.withAcc_err (v : Word) : (b.withAcc v).err = b.err := rfl

@[simp] theorem Block.openFrame_table : (b.openFrame).table = b.table := rfl
@[simp] theorem Block.openFrame_tv : (b.openFrame).tv = b.tv := rfl
@[simp] theorem Block.openFrame_acc : (b.openFrame).acc = b.acc := rfl
@[simp] theorem Block.openFrame_phase : (b.openFrame).phase = .opened := rfl
@[simp] theorem Block.openFrame_fcnt : (b.openFrame).fcnt = 0#32 := rfl
@[simp] theorem Block.openFrame_hsok : (b.openFrame).hsok = true := rfl
@[simp] theorem Block.openFrame_win : (b.openFrame).win = 0#32 := rfl
@[simp] theorem Block.openFrame_vacc : (b.openFrame).vacc = Config.seed := rfl
@[simp] theorem Block.openFrame_verdict : (b.openFrame).verdict = b.verdict := rfl
@[simp] theorem Block.openFrame_rxcrc : (b.openFrame).rxcrc = b.rxcrc := rfl
@[simp] theorem Block.openFrame_excrc : (b.openFrame).excrc = b.excrc := rfl
@[simp] theorem Block.openFrame_err : (b.openFrame).err = b.err := rfl

@[simp] theorem Block.takeByte_table (x : Byte) (a : Word) : (b.takeByte x a).table = b.table := rfl
@[simp] theorem Block.takeByte_tv (x : Byte) (a : Word) : (b.takeByte x a).tv = b.tv := rfl
@[simp] theorem Block.takeByte_acc (x : Byte) (a : Word) : (b.takeByte x a).acc = b.acc := rfl
@[simp] theorem Block.takeByte_phase (x : Byte) (a : Word) : (b.takeByte x a).phase = b.phase := rfl
@[simp] theorem Block.takeByte_fcnt (x : Byte) (a : Word) : (b.takeByte x a).fcnt = b.fcnt + 1#32 := rfl
@[simp] theorem Block.takeByte_hsok (x : Byte) (a : Word) : (b.takeByte x a).hsok = hsokAfter b x := rfl
@[simp] theorem Block.takeByte_win (x : Byte) (a : Word) : (b.takeByte x a).win = pushByte b.win x := rfl
@[simp] theorem Block.takeByte_vacc (x : Byte) (a : Word) : (b.takeByte x a).vacc = a := rfl
@[simp] theorem Block.takeByte_verdict (x : Byte) (a : Word) : (b.takeByte x a).verdict = b.verdict := rfl
@[simp] theorem Block.takeByte_rxcrc (x : Byte) (a : Word) : (b.takeByte x a).rxcrc = b.rxcrc := rfl
@[simp] theorem Block.takeByte_excrc (x : Byte) (a : Word) : (b.takeByte x a).excrc = b.excrc := rfl
@[simp] theorem Block.takeByte_err (x : Byte) (a : Word) : (b.takeByte x a).err = b.err := rfl

@[simp] theorem Block.closeFrame_table (e : Word) : (b.closeFrame e).table = b.table := rfl
@[simp] theorem Block.closeFrame_tv (e : Word) : (b.closeFrame e).tv = b.tv := rfl
@[simp] theorem Block.closeFrame_acc (e : Word) : (b.closeFrame e).acc = b.acc := rfl
@[simp] theorem Block.closeFrame_phase (e : Word) : (b.closeFrame e).phase = .idle := rfl
@[simp] theorem Block.closeFrame_fcnt (e : Word) : (b.closeFrame e).fcnt = b.fcnt := rfl
@[simp] theorem Block.closeFrame_hsok (e : Word) : (b.closeFrame e).hsok = b.hsok := rfl
@[simp] theorem Block.closeFrame_win (e : Word) : (b.closeFrame e).win = b.win := rfl
@[simp] theorem Block.closeFrame_vacc (e : Word) : (b.closeFrame e).vacc = b.vacc := rfl
@[simp] theorem Block.closeFrame_verdict (e : Word) : (b.closeFrame e).verdict = frameVerdict b e := rfl
@[simp] theorem Block.closeFrame_rxcrc (e : Word) : (b.closeFrame e).rxcrc = if frameCompared b then b.win else b.rxcrc := rfl
@[simp] theorem Block.closeFrame_excrc (e : Word) : (b.closeFrame e).excrc = if frameCompared b then e else b.excrc := rfl
@[simp] theorem Block.closeFrame_err (e : Word) : (b.closeFrame e).err = b.err := rfl

@[simp] theorem Block.markError_table : (b.markError).table = b.table := rfl
@[simp] theorem Block.markError_tv : (b.markError).tv = b.tv := rfl
@[simp] theorem Block.markError_acc : (b.markError).acc = b.acc := rfl
@[simp] theorem Block.markError_phase : (b.markError).phase = b.phase := rfl
@[simp] theorem Block.markError_fcnt : (b.markError).fcnt = b.fcnt := rfl
@[simp] theorem Block.markError_hsok : (b.markError).hsok = b.hsok := rfl
@[simp] theorem Block.markError_win : (b.markError).win = b.win := rfl
@[simp] theorem Block.markError_vacc : (b.markError).vacc = b.vacc := rfl
@[simp] theorem Block.markError_verdict : (b.markError).verdict = b.verdict := rfl
@[simp] theorem Block.markError_rxcrc : (b.markError).rxcrc = b.rxcrc := rfl
@[simp] theorem Block.markError_excrc : (b.markError).excrc = b.excrc := rfl
@[simp] theorem Block.markError_err : (b.markError).err = true := rfl

@[simp] theorem State.reply_block (st : BitVec 4) (v : Word) : (s.reply b st v).block = b := rfl
@[simp] theorem State.reply_host (st : BitVec 4) (v : Word) : (s.reply b st v).host = s.host := rfl
@[simp] theorem State.reply_rsps (st : BitVec 4) (v : Word) :
    (s.reply b st v).rsps = s.rsps ++ [rspWord st v] := rfl

@[simp] theorem State.resetBlock_block : s.resetBlock.block = Block.reset := rfl
@[simp] theorem State.resetBlock_host : s.resetBlock.host = s.host := rfl
@[simp] theorem State.resetBlock_rsps : s.resetBlock.rsps = s.rsps := rfl

@[simp] theorem State.withCommand_block (w : CmdWord) : (s.withCommand w).block = s.block := rfl
@[simp] theorem State.withCommand_host (w : CmdWord) : (s.withCommand w).host = .cmd w :: s.host := rfl
@[simp] theorem State.withCommand_rsps (w : CmdWord) : (s.withCommand w).rsps = s.rsps := rfl

end

end Sys2Proof.Machine
end

