-- ==== Sys2Proof/Laws/Exec.lean ====
section
/-! SUPPORT. What the shared operations and `exec` can do, said once: a command is accepted with the effect of its
rule, or refused, and the machine stops only on a table entry without a value. -/

namespace Sys2Proof.Machine

theorem accept_next (s t : State) (b : Block) (v : Word) : accept s b v = .next t ↔ t = s.reply b stOk v := by
  simp [accept, eq_comm]

theorem raise_next (s t : State) (e : ProtoError) : raise s e = .next t ↔ t = s.reply s.block.markError e.code 0#32 := by
  simp [raise, eq_comm]

/-- A lookup of an entry that has a value goes on with it. -/
theorem lookup_some (b : Block) (i : Byte) (k : Word → Result) {v : Word} (h : tblRead b.table i = some v) :
    lookup b i k = k v := by
  simp [lookup, h]

theorem lookup_next (b : Block) (i : Byte) (k : Word → Result) (t : State) :
    lookup b i k = .next t ↔ ∃ v, tblRead b.table i = some v ∧ k v = .next t := by
  unfold lookup
  split <;> simp_all

/-- What `VACC` becomes by the byte that leaves the window (41_frame_validator.md R101): `crc_step` of it from the
fifth byte of the frame on, and itself before. -/
def Fed (b : Block) (a : Word) : Prop :=
  (4 ≤ b.fcnt.toNat ∧ ∃ e, tblRead b.table (tableIndex b.vacc (oldestByte b.win)) = some e ∧ a = (b.vacc >>> 8) ^^^ e) ∨
  (b.fcnt.toNat < 4 ∧ a = b.vacc)

theorem feedOldest_next (b : Block) (k : Word → Result) (t : State) :
    feedOldest b k = .next t ↔ ∃ a, Fed b a ∧ k a = .next t := by
  unfold feedOldest Fed
  by_cases h : 4 ≤ b.fcnt.toNat
  · have h' : ¬ b.fcnt.toNat < 4 := by omega
    simp only [Config.trLen, h, if_true, lookup_next, true_and, h', false_and, or_false]
    constructor
    · rintro ⟨e, he, hk⟩; exact ⟨_, ⟨e, he, rfl⟩, hk⟩
    · rintro ⟨a, ⟨e, he, rfl⟩, hk⟩; exact ⟨e, he, hk⟩
  · have h' : b.fcnt.toNat < 4 := by omega
    simp [h, h']

/-- A frame shorter than eight bytes: no comparison is made (41_frame_validator.md R102). -/
theorem closeFrame_short (b : Block) (x : Word) (h : b.fcnt.toNat < 8) :
    frameVerdict b x = .short ∧ b.closeFrame x = { b with verdict := .short, phase := .idle } := by
  have h' : frameCompared b = false := by simp [frameCompared, h]
  simp [Block.closeFrame, frameVerdict, h, h']

/-- A frame of eight bytes or more with a bad preamble: no comparison is made (41_frame_validator.md R102). -/
theorem closeFrame_hs (b : Block) (x : Word) (h : 8 ≤ b.fcnt.toNat) (hk : b.hsok = false) :
    frameVerdict b x = .hs ∧ b.closeFrame x = { b with verdict := .hs, phase := .idle } := by
  have h' : frameCompared b = false := by simp [frameCompared, hk]
  simp [Block.closeFrame, frameVerdict, show ¬ b.fcnt.toNat < 8 by omega, hk, h']

/-- A frame of eight bytes or more with a good preamble: the two checksums are compared and kept
(41_frame_validator.md R102). -/
theorem closeFrame_compared (b : Block) (x : Word) (h : 8 ≤ b.fcnt.toNat) (hk : b.hsok = true) :
    frameVerdict b x = (if b.win = x then .ok else .crc) ∧
    b.closeFrame x = { b with
      verdict := if b.win = x then .ok else .crc, phase := .idle, rxcrc := b.win, excrc := x } := by
  have h' : frameCompared b = true := by simp [frameCompared, show ¬ b.fcnt.toNat < 8 by omega, hk]
  simp [Block.closeFrame, frameVerdict, show ¬ b.fcnt.toNat < 8 by omega, hk, h']

/-- The errors each command is refused with, in priority order (60_exceptions.md R123, R125). -/
def Refuses (i : Instr) (b : Block) (e : ProtoError) : Prop :=
  match i with
  | .extb _ | .rdtbl _ => b.tv = false ∧ e = .noTbl
  | .fbyte _ =>
    (b.tv = false ∧ e = .noTbl) ∨ (b.tv = true ∧ b.phase = .idle ∧ e = .seq) ∨
      (b.tv = true ∧ b.phase = .opened ∧ b.fcnt.toNat = 4294967295 ∧ e = .len)
  | .fendc | .fendp _ => b.phase = .idle ∧ e = .seq
  | .tinit | .seed | .ldacc _ | .final | .rdacc | .fstart | .rdst | .rdrx | .rdex | .rdlen => False

/-- The effect of each command when it is accepted: the block it leaves and the value it answers. -/
def Accepts (i : Instr) (b b' : Block) (v : Word) : Prop :=
  match i with
  | .tinit => b' = b.withTable ∧ v = 0#32
  | .seed => b' = b.withAcc 0xFFFFFFFF#32 ∧ v = 0#32
  | .ldacc x => b' = b.withAcc x ∧ v = 0#32
  | .extb x => b.tv = true ∧ v = 0#32 ∧
      ∃ e, tblRead b.table (tableIndex b.acc x) = some e ∧ b' = b.withAcc ((b.acc >>> 8) ^^^ e)
  | .final => b' = b ∧ v = b.acc ^^^ 0xFFFFFFFF#32
  | .rdacc => b' = b ∧ v = b.acc
  | .rdtbl k => b.tv = true ∧ b' = b ∧ tblRead b.table k = some v
  | .fstart => b' = b.openFrame ∧ v = 0#32
  | .fbyte x => b.tv = true ∧ b.phase = .opened ∧ b.fcnt.toNat ≠ 4294967295 ∧ v = 0#32 ∧
      ∃ a, Fed b a ∧ b' = b.takeByte x a
  | .fendc => b.phase = .opened ∧ b' = b.closeFrame (b.vacc ^^^ 0xFFFFFFFF#32) ∧
      v = (frameVerdict b (b.vacc ^^^ 0xFFFFFFFF#32)).code.setWidth 32
  | .fendp x => b.phase = .opened ∧ b' = b.closeFrame x ∧ v = (frameVerdict b x).code.setWidth 32
  | .rdst => b' = b ∧ v = statusWord b
  | .rdrx => b' = b ∧ v = b.rxcrc
  | .rdex => b' = b ∧ v = b.excrc
  | .rdlen => b' = b ∧ v = b.fcnt

/-- Everything `exec` can do: a next state is that of an accepted command or of a refused one. -/
theorem exec_next (i : Instr) (s t : State) : exec i s = .next t ↔
    (∃ b v, Accepts i s.block b v ∧ t = s.reply b stOk v) ∨
    (∃ e, Refuses i s.block e ∧ t = s.reply s.block.markError e.code 0#32) := by
  have endNext : ∀ x, endFrame s x = .next t ↔
      (s.block.phase = .opened ∧ t = s.reply (s.block.closeFrame x) stOk ((frameVerdict s.block x).code.setWidth 32)) ∨
      (s.block.phase = .idle ∧ t = s.reply s.block.markError (ProtoError.code .seq) 0#32) := by
    intro x
    cases hp : s.block.phase <;> simp [endFrame, hp, accept_next, raise_next]
  cases i with
  | extb x =>
    cases htv : s.block.tv
    · simp [exec, execExtb, Accepts, Refuses, htv, raise_next]
    · simp only [exec, execExtb, htv, Bool.true_eq_false, if_false, lookup_next, accept_next, Accepts, Refuses,
        true_and, false_and, exists_false, or_false]
      constructor
      · rintro ⟨e, he, rfl⟩; exact ⟨_, _, ⟨rfl, e, he, rfl⟩, rfl⟩
      · rintro ⟨b, v, ⟨rfl, e, he, rfl⟩, rfl⟩; exact ⟨e, he, rfl⟩
  | rdtbl k =>
    cases htv : s.block.tv
    · simp [exec, execRdtbl, Accepts, Refuses, htv, raise_next]
    · simp [exec, execRdtbl, htv, lookup_next, accept_next, Accepts, Refuses]
  | fbyte x =>
    cases htv : s.block.tv
    · simp [exec, execFbyte, Accepts, Refuses, htv, raise_next]
    · cases hp : s.block.phase
      · simp [exec, execFbyte, Accepts, Refuses, htv, hp, raise_next]
      · by_cases hf : s.block.fcnt.toNat = 4294967295
        · simp [exec, execFbyte, Accepts, Refuses, htv, hp, hf, raise_next]
        · have hq : Phase.opened ≠ Phase.idle := by decide
          simp only [exec, execFbyte, htv, hp, hf, hq, Config.lMax, Bool.true_eq_false, if_false, feedOldest_next,
            accept_next, Accepts, Refuses, true_and, false_and, or_false, exists_false, ne_eq,
            not_false_eq_true]
          constructor
          · rintro ⟨a, ha, rfl⟩; exact ⟨_, _, ⟨rfl, a, ha, rfl⟩, rfl⟩
          · rintro ⟨b, v, ⟨rfl, a, ha, rfl⟩, rfl⟩; exact ⟨a, ha, rfl⟩
  | fendc =>
    simp [exec, execFendc, endNext, Accepts, Refuses, and_assoc]
  | fendp x =>
    simp [exec, execFendp, endNext, Accepts, Refuses, and_assoc]
  | _ => simp [exec, execTinit, execSeed, execLdacc, execFinal, execRdacc, execFstart, execRdst, execRdrx, execRdex,
      execRdlen, accept_next, Accepts, Refuses]

end Sys2Proof.Machine
end

