-- ==== Sys2Proof/Laws/PerInstr.lean ====
section
/-! SUPPORT. Facts about every command as syntax, one lemma per constructor. -/

/-- The word of a command passes every check of 30_encoding.md R49. -/
def Sys2Proof.Laws.EncodedWord.Statement (i : Sys2Proof.Instr) : Prop :=
  Sys2Proof.CmdWord.wf (Sys2Proof.encode i) = true

namespace Sys2Proof.Laws.EncodedWord

/-- The checks of R49 on an encoded command, field by field. -/
theorem statement_of (i : Instr) (f : Form) (hf : formOf i.opcode.toNat = some f)
    (h : operandCheck f i.argument = none) : Statement i := by
  simp [Statement, CmdWord.wf, fieldCheck, hf, h]

/-- A byte operand, zero-extended, passes the check of form B. -/
theorem byte_fits (b : Byte) : operandCheck .byte (b.setWidth 32) = none := if_pos (top_of_setWidth b)

theorem tinit : Statement .tinit := statement_of _ .none rfl rfl
theorem seed : Statement .seed := statement_of _ .none rfl rfl
theorem ldacc (v : Word) : Statement (.ldacc v) := statement_of _ .word rfl rfl
theorem extb (b : Byte) : Statement (.extb b) := statement_of _ .byte rfl (byte_fits b)
theorem final : Statement .final := statement_of _ .none rfl rfl
theorem rdacc : Statement .rdacc := statement_of _ .none rfl rfl
theorem rdtbl (i : Byte) : Statement (.rdtbl i) := statement_of _ .byte rfl (byte_fits i)
theorem fstart : Statement .fstart := statement_of _ .none rfl rfl
theorem fbyte (b : Byte) : Statement (.fbyte b) := statement_of _ .byte rfl (byte_fits b)
theorem fendc : Statement .fendc := statement_of _ .none rfl rfl
theorem fendp (v : Word) : Statement (.fendp v) := statement_of _ .word rfl rfl
theorem rdst : Statement .rdst := statement_of _ .none rfl rfl
theorem rdrx : Statement .rdrx := statement_of _ .none rfl rfl
theorem rdex : Statement .rdex := statement_of _ .none rfl rfl
theorem rdlen : Statement .rdlen := statement_of _ .none rfl rfl

end Sys2Proof.Laws.EncodedWord
end

