-- ==== Sys2Proof/Laws/Run.lean ====
section
/-! SUPPORT. Steps and runs: what a step does with the host's next act, and a run taken apart into its first step and
the rest. -/

namespace Sys2Proof.Machine

theorem step_cons (s : State) (a : HostAct) (rest : List HostAct) (h : s.host = a :: rest) :
    step s = perform a { s with host := rest } := by
  rw [step, h]

theorem step_nil (s : State) (h : s.host = []) : step s = .next s := by
  rw [step, h]

/-- What the block does with a command word: a command accepted, or the word or the command refused. -/
theorem issue_next (w : CmdWord) (s t : State) : issue w s = .next t ↔
    (∃ i b v, decode w = .ok i ∧ Accepts i s.block b v ∧ t = s.reply b stOk v) ∨
    (∃ i e, decode w = .ok i ∧ Refuses i s.block e ∧ t = s.reply s.block.markError e.code 0#32) ∨
    (∃ r, decode w = .error r ∧ t = s.reply s.block.markError (ProtoError.code .ill) 0#32) := by
  unfold issue
  cases decode w with
  | ok i => simp [exec_next]
  | error r => simp [raise_next]

theorem runsTo_zero (s t : State) : RunsTo 0 s t ↔ t = s := by
  unfold RunsTo
  exact ⟨fun h => (Host.Outcome.next.inj h).symm, fun h => congrArg _ h.symm⟩

theorem core_run_succ (M : Host.Core) (n : Nat) (s t : M.State) :
    M.run (n + 1) s = .next t ↔ ∃ u, M.step s = .next u ∧ M.run n u = .next t := by
  rw [Host.Core.run]
  cases M.step s <;> simp

theorem runsTo_succ (n : Nat) (s t : State) : RunsTo (n + 1) s t ↔ ∃ u, step s = .next u ∧ RunsTo n u t :=
  core_run_succ Sys2Proof.core n s t

/-- A run over the host's first act and then some others. -/
theorem runsTo_cons (n : Nat) (s t u : State) (a : HostAct) (rest : List HostAct) (hs : s.host = a :: rest)
    (hu : perform a { s with host := rest } = .next u) : RunsTo (n + 1) s t ↔ RunsTo n u t := by
  rw [runsTo_succ, step_cons s a rest hs, hu]
  exact ⟨fun ⟨v, hv, hr⟩ => by cases hv; exact hr, fun h => ⟨u, rfl, h⟩⟩

end Sys2Proof.Machine
end

