-- ==== Sys2Proof/Tests/Slice0.lean ====
section
/-! SUPPORT. Tests on small states, with expected values from spec/ (95_test_vectors.md, 40_crc_engine.md R65), and a
witness for the hypotheses of each statement. -/

set_option Elab.async false

namespace Sys2Proof.Tests

open Sys2Proof Sys2Proof.Machine

/-! ## Helpers -/

/-- The state of a next outcome. -/
def nextState : Result → Option State
  | .next s => some s
  | .fault _ => none
  | .refused _ => none

theorem next_of {r : Result} (h : (nextState r).isSome = true) : ∃ t, r = .next t := by
  cases r with
  | next t => exact ⟨t, rfl⟩
  | fault f => cases h
  | refused f => cases h

/-- A machine whose block is `b`, with some acts of the host to come. -/
def machine (b : Block) (acts : List HostAct) : State := { block := b, host := acts, rsps := [] }

/-- The block after reset and `TINIT`. -/
def built : Block := Block.reset.withTable

/-- The block with a table and a frame open, nothing taken yet. -/
def opened : Block := built.openFrame

/-- The block with the twelve bytes of `mkframe([])` taken (95_test_vectors.md program P3 and section 3.6). -/
def taken12 : Block :=
  { opened with fcnt := 12#32, win := 0x607E742C#32, vacc := 0x9F818BD3#32 }

/-- The block that has taken 2^32 − 1 bytes. -/
def full : Block := { taken12 with fcnt := 0xFFFFFFFF#32 }

/-- One field of the block after a command, with its response. -/
def after {α : Type} (r : Result) (f : Block → α) : Option (α × List RspWord) :=
  (nextState r).map fun t => (f t.block, t.rsps)

/-! ## Well-formedness: a word that fails each check (30_encoding.md R49) -/

theorem test_wf_refuses_opcode_zero : CmdWord.wf 0x0000000000#40 = false := by decide
theorem test_wf_refuses_opcode_above : CmdWord.wf 0x1000000000#40 = false := by decide
theorem test_wf_refuses_operand : CmdWord.wf 0x0A00000001#40 = false := by decide
theorem test_wf_refuses_wide_operand : CmdWord.wf 0x0400000100#40 = false := by decide
theorem test_wf_accepts : CmdWord.wf 0x03FFFFFFFF#40 = true := by decide

/-! ## Decoding, words written bit by bit from 30_encoding.md R45 and R47 -/

theorem test_decode_tinit : decode 0b00000001_00000000000000000000000000000000#40 = .ok .tinit := by rfl
theorem test_decode_seed : decode 0b00000010_00000000000000000000000000000000#40 = .ok .seed := by rfl
theorem test_decode_ldacc :
    decode 0b00000011_01100100000111000001111101011100#40 = .ok (.ldacc 0x641C1F5C#32) := by rfl
theorem test_decode_extb : decode 0b00000100_00000000000000000000000000110001#40 = .ok (.extb 0x31#8) := by rfl
theorem test_decode_final : decode 0b00000101_00000000000000000000000000000000#40 = .ok .final := by rfl
theorem test_decode_rdacc : decode 0b00000110_00000000000000000000000000000000#40 = .ok .rdacc := by rfl
theorem test_decode_rdtbl : decode 0b00000111_00000000000000000000000011111111#40 = .ok (.rdtbl 0xFF#8) := by rfl
theorem test_decode_fstart : decode 0b00001000_00000000000000000000000000000000#40 = .ok .fstart := by rfl
theorem test_decode_fbyte : decode 0b00001001_00000000000000000000000010101010#40 = .ok (.fbyte 0xAA#8) := by rfl
theorem test_decode_fendc : decode 0b00001010_00000000000000000000000000000000#40 = .ok .fendc := by rfl
theorem test_decode_fendp :
    decode 0b00001011_11001110101010110110001100111001#40 = .ok (.fendp 0xCEAB6339#32) := by rfl
theorem test_decode_rdst : decode 0b00001100_00000000000000000000000000000000#40 = .ok .rdst := by rfl
theorem test_decode_rdrx : decode 0b00001101_00000000000000000000000000000000#40 = .ok .rdrx := by rfl
theorem test_decode_rdex : decode 0b00001110_00000000000000000000000000000000#40 = .ok .rdex := by rfl
theorem test_decode_rdlen : decode 0b00001111_00000000000000000000000000000000#40 = .ok .rdlen := by rfl
theorem test_decode_illegal : decode 0x0900000100#40 = .error .wideOperand := by rfl
theorem test_decodeTableWord : decodeTableWord 40 0x0700000080 = some (.rdtbl 0x80#8) := by rfl

/-! ## The functions -/

/-- The table of 40_crc_engine.md R65, first half, row for row. -/
def specTableLow : List Nat :=
  [0x00000000, 0x77073096, 0xEE0E612C, 0x990951BA, 0x076DC419, 0x706AF48F, 0xE963A535, 0x9E6495A3] ++
  [0x0EDB8832, 0x79DCB8A4, 0xE0D5E91E, 0x97D2D988, 0x09B64C2B, 0x7EB17CBD, 0xE7B82D07, 0x90BF1D91] ++
  [0x1DB71064, 0x6AB020F2, 0xF3B97148, 0x84BE41DE, 0x1ADAD47D, 0x6DDDE4EB, 0xF4D4B551, 0x83D385C7] ++
  [0x136C9856, 0x646BA8C0, 0xFD62F97A, 0x8A65C9EC, 0x14015C4F, 0x63066CD9, 0xFA0F3D63, 0x8D080DF5] ++
  [0x3B6E20C8, 0x4C69105E, 0xD56041E4, 0xA2677172, 0x3C03E4D1, 0x4B04D447, 0xD20D85FD, 0xA50AB56B] ++
  [0x35B5A8FA, 0x42B2986C, 0xDBBBC9D6, 0xACBCF940, 0x32D86CE3, 0x45DF5C75, 0xDCD60DCF, 0xABD13D59] ++
  [0x26D930AC, 0x51DE003A, 0xC8D75180, 0xBFD06116, 0x21B4F4B5, 0x56B3C423, 0xCFBA9599, 0xB8BDA50F] ++
  [0x2802B89E, 0x5F058808, 0xC60CD9B2, 0xB10BE924, 0x2F6F7C87, 0x58684C11, 0xC1611DAB, 0xB6662D3D] ++
  [0x76DC4190, 0x01DB7106, 0x98D220BC, 0xEFD5102A, 0x71B18589, 0x06B6B51F, 0x9FBFE4A5, 0xE8B8D433] ++
  [0x7807C9A2, 0x0F00F934, 0x9609A88E, 0xE10E9818, 0x7F6A0DBB, 0x086D3D2D, 0x91646C97, 0xE6635C01] ++
  [0x6B6B51F4, 0x1C6C6162, 0x856530D8, 0xF262004E, 0x6C0695ED, 0x1B01A57B, 0x8208F4C1, 0xF50FC457] ++
  [0x65B0D9C6, 0x12B7E950, 0x8BBEB8EA, 0xFCB9887C, 0x62DD1DDF, 0x15DA2D49, 0x8CD37CF3, 0xFBD44C65] ++
  [0x4DB26158, 0x3AB551CE, 0xA3BC0074, 0xD4BB30E2, 0x4ADFA541, 0x3DD895D7, 0xA4D1C46D, 0xD3D6F4FB] ++
  [0x4369E96A, 0x346ED9FC, 0xAD678846, 0xDA60B8D0, 0x44042D73, 0x33031DE5, 0xAA0A4C5F, 0xDD0D7CC9] ++
  [0x5005713C, 0x270241AA, 0xBE0B1010, 0xC90C2086, 0x5768B525, 0x206F85B3, 0xB966D409, 0xCE61E49F] ++
  [0x5EDEF90E, 0x29D9C998, 0xB0D09822, 0xC7D7A8B4, 0x59B33D17, 0x2EB40D81, 0xB7BD5C3B, 0xC0BA6CAD]

/-- The table of 40_crc_engine.md R65, second half, row for row. -/
def specTableHigh : List Nat :=
  [0xEDB88320, 0x9ABFB3B6, 0x03B6E20C, 0x74B1D29A, 0xEAD54739, 0x9DD277AF, 0x04DB2615, 0x73DC1683] ++
  [0xE3630B12, 0x94643B84, 0x0D6D6A3E, 0x7A6A5AA8, 0xE40ECF0B, 0x9309FF9D, 0x0A00AE27, 0x7D079EB1] ++
  [0xF00F9344, 0x8708A3D2, 0x1E01F268, 0x6906C2FE, 0xF762575D, 0x806567CB, 0x196C3671, 0x6E6B06E7] ++
  [0xFED41B76, 0x89D32BE0, 0x10DA7A5A, 0x67DD4ACC, 0xF9B9DF6F, 0x8EBEEFF9, 0x17B7BE43, 0x60B08ED5] ++
  [0xD6D6A3E8, 0xA1D1937E, 0x38D8C2C4, 0x4FDFF252, 0xD1BB67F1, 0xA6BC5767, 0x3FB506DD, 0x48B2364B] ++
  [0xD80D2BDA, 0xAF0A1B4C, 0x36034AF6, 0x41047A60, 0xDF60EFC3, 0xA867DF55, 0x316E8EEF, 0x4669BE79] ++
  [0xCB61B38C, 0xBC66831A, 0x256FD2A0, 0x5268E236, 0xCC0C7795, 0xBB0B4703, 0x220216B9, 0x5505262F] ++
  [0xC5BA3BBE, 0xB2BD0B28, 0x2BB45A92, 0x5CB36A04, 0xC2D7FFA7, 0xB5D0CF31, 0x2CD99E8B, 0x5BDEAE1D] ++
  [0x9B64C2B0, 0xEC63F226, 0x756AA39C, 0x026D930A, 0x9C0906A9, 0xEB0E363F, 0x72076785, 0x05005713] ++
  [0x95BF4A82, 0xE2B87A14, 0x7BB12BAE, 0x0CB61B38, 0x92D28E9B, 0xE5D5BE0D, 0x7CDCEFB7, 0x0BDBDF21] ++
  [0x86D3D2D4, 0xF1D4E242, 0x68DDB3F8, 0x1FDA836E, 0x81BE16CD, 0xF6B9265B, 0x6FB077E1, 0x18B74777] ++
  [0x88085AE6, 0xFF0F6A70, 0x66063BCA, 0x11010B5C, 0x8F659EFF, 0xF862AE69, 0x616BFFD3, 0x166CCF45] ++
  [0xA00AE278, 0xD70DD2EE, 0x4E048354, 0x3903B3C2, 0xA7672661, 0xD06016F7, 0x4969474D, 0x3E6E77DB] ++
  [0xAED16A4A, 0xD9D65ADC, 0x40DF0B66, 0x37D83BF0, 0xA9BCAE53, 0xDEBB9EC5, 0x47B2CF7F, 0x30B5FFE9] ++
  [0xBDBDF21C, 0xCABAC28A, 0x53B39330, 0x24B4A3A6, 0xBAD03605, 0xCDD70693, 0x54DE5729, 0x23D967BF] ++
  [0xB3667A2E, 0xC4614AB8, 0x5D681B02, 0x2A6F2B94, 0xB40BBE37, 0xC30C8EA1, 0x5A05DF1B, 0x2D02EF8D]

theorem test_table : (List.range 256).map (fun i => (tbl (BitVec.ofNat 8 i)).toNat) = specTableLow ++ specTableHigh := by
  decide +kernel
/-- 00_scope.md R6: `RPOLY` is `POLY` with its bits in reverse order. -/
theorem test_rpoly : Config.rpoly = Config.poly.reverse := by decide +kernel
theorem test_crcStep_zero_index : crcStep 0xFFFFFFFF#32 0xFF#8 = 0x00FFFFFF#32 := by decide +kernel
theorem test_crcStep : crcStep 0xDEADBEEF#32 0x55#8 = 0x2B6AF72C#32 := by decide +kernel
theorem test_compute_abc : compute [0x61#8, 0x62#8, 0x63#8] = 0x352441C2#32 := by decide +kernel
/-- Row F10: the trailer little-endian. -/
theorem test_validate_little_endian :
    validate (preamble ++ [0x00#8, 0x01#8, 0x02#8, 0x03#8, 0x39#8, 0x63#8, 0xAB#8, 0xCE#8]) none =
      .mismatch 0x3963ABCE#32 0xCEAB6339#32 := by decide +kernel
/-- Row F16: nine bytes with the supplied value of the trailer. -/
theorem test_validate_nine_bytes :
    validate (preamble ++ [0x77#8]) (some 0x55AA5577#32) = .good 0x55AA5577#32 0x55AA5577#32 := by decide +kernel
/-- Row F8: the preamble bytes in the other order. -/
theorem test_validate_swapped_preamble :
    validate [0x55#8, 0xAA#8, 0x55#8, 0xAA#8, 0x55#8, 0xAA#8, 0x55#8, 0xAA#8, 0xD0#8, 0x5C#8, 0x7A#8, 0x3F#8] none =
      .badHandshake := by decide +kernel
theorem test_mkframe_empty :
    mkframe [] = preamble ++ [0x60#8, 0x7E#8, 0x74#8, 0x2C#8] := by decide +kernel

/-! ## Commands, one step each (the examples of 40_crc_engine.md, 41_frame_validator.md, 95_test_vectors.md) -/

/-- R70's example: `STATUS` goes to 0x00000005. -/
theorem test_tinit_status : after (exec .tinit State.reset) statusWord = some (5#32, [0#36]) := by decide +kernel
theorem test_tinit_entry :
    after (exec .tinit State.reset) (fun b => tblRead b.table 0xCE#8) = some (some 0x7CDCEFB7#32, [0#36]) := by
  decide +kernel
theorem test_seed :
    after (exec .seed (machine { built with acc := 0x340BC6D9#32 } [])) Block.acc = some (0xFFFFFFFF#32, [0#36]) := by
  decide +kernel
theorem test_ldacc :
    after (exec (.ldacc 0x641C1F5C#32) State.reset) Block.acc = some (0x641C1F5C#32, [0#36]) := by decide +kernel
/-- R73's example. -/
theorem test_extb :
    after (exec (.extb 0x31#8) (machine built [])) Block.acc = some (0x7C231048#32, [0#36]) := by decide +kernel
/-- Section 3.7: refused from reset, `ACC` untouched. -/
theorem test_extb_without_table :
    after (exec (.extb 0x31#8) State.reset) (fun b => (b.acc, b.err)) =
      some ((0xFFFFFFFF#32, true), [0x200000000#36]) := by decide +kernel
theorem test_final :
    after (exec .final (machine { built with acc := 0x340BC6D9#32 } [])) Block.acc =
      some (0x340BC6D9#32, [0x0CBF43926#36]) := by decide +kernel
theorem test_rdacc :
    after (exec .rdacc (machine { built with acc := 0x641C1F5C#32 } [])) Block.acc =
      some (0x641C1F5C#32, [0x0641C1F5C#36]) := by decide +kernel
/-- R76's example. -/
theorem test_rdtbl : after (exec (.rdtbl 0x80#8) (machine built [])) Block.err = some (false, [0x0EDB88320#36]) := by
  decide +kernel
/-- R100's example: a frame ended `V_CRC` leaves `STATUS` 0x45, `FSTART` makes it 0x47. -/
theorem test_fstart :
    after (exec .fstart (machine { built with verdict := .crc } [])) statusWord = some (0x47#32, [0#36]) := by
  decide +kernel
/-- R101's example: the fifth byte of a frame. -/
theorem test_fbyte :
    after (exec (.fbyte 0xAA#8) (machine { opened with fcnt := 4#32, win := 0xAA55AA55#32 } []))
      (fun b => (b.vacc, b.hsok, b.win, b.fcnt)) =
      some ((0x1BFE5A84#32, true, 0x55AA55AA#32, 5#32), [0#36]) := by decide +kernel
/-- Section 3.7: the counter is full. -/
theorem test_fbyte_full :
    after (exec (.fbyte 0x00#8) (machine full [])) (fun b => (b.fcnt, b.win, b.err)) =
      some ((0xFFFFFFFF#32, 0x607E742C#32, true), [0x400000000#36]) := by decide +kernel
/-- R102's example: `mkframe([])` is good. -/
theorem test_fendc :
    after (exec .fendc (machine taken12 [])) (fun b => (b.excrc, statusWord b)) =
      some ((0x607E742C#32, 0x15#32), [1#36]) := by decide +kernel
/-- Section 3.7: from reset, no verdict. -/
theorem test_fendc_idle :
    after (exec .fendc State.reset) (fun b => (b.verdict, b.err)) = some ((.none, true), [0x300000000#36]) := by
  decide +kernel
/-- R103: a wrong supplied value fails an intact frame. -/
theorem test_fendp :
    after (exec (.fendp 0x12345678#32) (machine taken12 [])) (fun b => (b.rxcrc, b.excrc, b.verdict)) =
      some ((0x607E742C#32, 0x12345678#32, .crc), [4#36]) := by decide +kernel
/-- D32: legal without a table, and then the frame is short. -/
theorem test_fendp_short :
    after (exec (.fendp 0#32) (machine Block.reset.openFrame [])) (fun b => (b.verdict, b.phase)) =
      some ((.short, .idle), [2#36]) := by decide +kernel
/-- R104's example: a frame ended `V_HS`. -/
theorem test_rdst :
    after (exec .rdst (machine { built with verdict := .hs, hsok := false } [])) Block.err =
      some (false, [0x31#36]) := by decide +kernel
theorem test_rdst_err : after (exec .rdst (machine Block.reset.markError [])) Block.err = some (true, [0x0C#36]) := by
  decide +kernel
theorem test_rdrx :
    after (exec .rdrx (machine { built with rxcrc := 0xCEAB6339#32 } [])) Block.rxcrc =
      some (0xCEAB6339#32, [0x0CEAB6339#36]) := by decide +kernel
theorem test_rdex :
    after (exec .rdex (machine { built with excrc := 0xCF69090E#32 } [])) Block.excrc =
      some (0xCF69090E#32, [0x0CF69090E#36]) := by decide +kernel
theorem test_rdlen : after (exec .rdlen (machine taken12 [])) Block.fcnt = some (12#32, [0x00000000C#36]) := by
  decide +kernel

/-! ## The port -/

theorem test_fetch_word :
    after (step (State.reset.withFetchWord 40 0x0700000080)) Block.err = some (true, [0x200000000#36]) := by
  decide +kernel
theorem test_illegal_word :
    after (step (machine built [.cmd 0xFFFFFFFFFF#40])) Block.err = some (true, [0x100000000#36]) := by decide +kernel
theorem test_reset_during :
    after (step (machine taken12 [.rstDuring 0x0A00000000#40])) id = some (Block.reset, []) := by decide +kernel

/-! ## Witnesses: states and operands that meet the hypotheses of each statement -/

theorem built_wf : Memory.wf built.table = true := buildTable_keeps_wf [] rfl

theorem built_table : ∀ i : Byte, tblRead built.table i = some (tbl i) := tblRead_buildTable []

theorem taken12_built : TableBuilt taken12 := fun _ => built_table

/-- A state of the invariant: table built, a frame of twelve bytes open. -/
theorem witness_inv (acts : List HostAct) : Inv (machine taken12 acts) where
  memory := built_wf
  table := taken12_built
  frameNeedsTable _ _ := rfl
  noVerdict _ := ⟨rfl, rfl⟩
  window h := by cases (show ¬ (12 < 4) by decide) h
  verdictOk h := by cases h
  verdictCrc h := by cases h

theorem witness_inv_table_valid : Inv (machine taken12 []) ∧ taken12.tv = true := ⟨witness_inv [], rfl⟩

theorem witness_EncodeDecodeIsIdentityOnLegalWords : decode 0x0400000031#40 = .ok (.extb 0x31#8) := by rfl

theorem witness_OpcodeMapGivesTheCommand : ∃ r ∈ opcodeMap, (0x0400000031#40 : CmdWord) &&& r.mask = r.pattern :=
  ⟨⟨"EXTB", 0x0400000000#40, 0xFFFFFFFF00#40⟩, by decide, by decide⟩

theorem witness_IllegalWordsAreRefused :
    decode 0x0100000001#40 = .error .operand ∧
    (machine built [.cmd 0x0100000001#40]).host = .cmd 0x0100000001#40 :: [] := ⟨rfl, rfl⟩

theorem witness_EveryCommandAnswersOnce :
    (machine taken12 [.cmd 0x0A00000000#40]).host = .cmd 0x0A00000000#40 :: [] ∧
    ∃ t, step (machine taken12 [.cmd 0x0A00000000#40]) = .next t := ⟨rfl, next_of (by decide +kernel)⟩

/-- The last clause: a command that neither reads nor judges. -/
theorem witness_EveryCommandAnswersOnce_plain :
    decode 0x0200000000#40 = .ok .seed ∧ Instr.seed.mnemonic ∈ ["TINIT", "SEED", "LDACC", "EXTB", "FSTART", "FBYTE"] ∧
    ∃ t, step (machine built [.cmd 0x0200000000#40]) = .next t := ⟨rfl, by decide, next_of (by decide +kernel)⟩

theorem witness_StepRunsTheDecodedCommand :
    decode 0x09000000AA#40 = .ok (.fbyte 0xAA#8) ∧
    (machine taken12 [.cmd 0x09000000AA#40]).host = .cmd 0x09000000AA#40 :: [] := ⟨rfl, rfl⟩

theorem witness_HostResetRestoresEveryElement :
    (HostAct.rst.isReset = true ∧ (machine taken12 [.rst]).host = .rst :: []) ∧
    (HostAct.rstDuring 0#40).isReset = true ∧ (machine taken12 [.rstDuring 0#40]).host = .rstDuring 0#40 :: [] :=
  ⟨⟨rfl, rfl⟩, rfl, rfl⟩

theorem witness_NothingChangesBetweenCommands : (machine taken12 []).host = [] := rfl

theorem witness_StepKeepsInvariants :
    Inv (machine taken12 [.cmd 0x0A00000000#40]) ∧ ∃ t, step (machine taken12 [.cmd 0x0A00000000#40]) = .next t :=
  ⟨witness_inv _, next_of (by decide +kernel)⟩

/-- Reachable: after `FSTART` and one refused `FBYTE`. -/
theorem witness_ReachableStatesMeetInvariants : ∃ t, Reachable t ∧ t.block.phase = .opened ∧ t.block.err = true := by
  refine ⟨{ block := { Block.reset.openFrame with err := true }, host := [],
            rsps := [0#36, 0x200000000#36] }, ⟨[.cmd 0x0800000000#40, .cmd 0x09000000AA#40], 2, ?_⟩, rfl, rfl⟩
  rfl

theorem witness_StepNeverStops : Inv (machine taken12 [.cmd 0x09000000AA#40]) := witness_inv _

theorem witness_TableValidAndErrorAreSticky :
    (machine taken12.markError [.cmd 0#40]).host = .cmd 0#40 :: [] ∧ (HostAct.cmd 0#40).isReset = false ∧
    taken12.markError.tv = true ∧ taken12.markError.err = true ∧
    ∃ t, step (machine taken12.markError [.cmd 0#40]) = .next t := ⟨rfl, rfl, rfl, rfl, next_of (by decide +kernel)⟩

theorem witness_BuiltTableNeverChanges :
    Inv (machine taken12 [.cmd 0x0100000000#40]) ∧ taken12.tv = true ∧
    (HostAct.cmd 0x0100000000#40).isReset = false ∧
    ∃ t, step (machine taken12 [.cmd 0x0100000000#40]) = .next t :=
  ⟨witness_inv _, rfl, rfl, next_of (by decide +kernel)⟩

theorem witness_RefusalChangesOnlyErr :
    step (machine Block.reset [.cmd 0x0400000031#40]) =
      .next { block := Block.reset.markError, host := [], rsps := [] ++ [2#4 ++ 0#32] } ∧ (2#4 ≠ 0#4) :=
  ⟨rfl, by decide⟩

theorem witness_AcceptedCommandKeepsErr :
    exec .seed (machine Block.reset []) = .next { block := Block.reset, host := [], rsps := [] ++ [0#4 ++ 0#32] } := by
  rfl

theorem witness_ErrTellsWhetherAnyCommandWasRefused :
    NoProtocolError (machine Block.reset [.cmd 0x0200000000#40, .cmd 0#40]) ∧
    (∀ a ∈ [HostAct.cmd 0x0200000000#40, .cmd 0#40], a.isReset = false) ∧
    RunsTo 2 (machine Block.reset [.cmd 0x0200000000#40, .cmd 0#40])
      { block := Block.reset.markError, host := [], rsps := [0#36, 0x100000000#36] } :=
  ⟨rfl, by decide, rfl⟩

theorem witness_OutcomeTable : TableBuilt taken12 := taken12_built

theorem witness_CommandsWriteOnlyWhatTheMatrixSays :
    (∃ t, exec .fendc (machine taken12 []) = .next t) ∧ Instr.fendc.mnemonic ∉ ["TINIT"] ∧
    Instr.fendc.mnemonic ∉ ["SEED", "LDACC", "EXTB"] ∧ Instr.fendc.mnemonic ∉ ["FSTART", "FBYTE"] ∧
    (∃ t, exec .rdst (machine taken12 []) = .next t) ∧ Instr.rdst.mnemonic ∉ ["FSTART", "FENDC", "FENDP"] ∧
    Instr.rdst.mnemonic ∉ ["FENDC", "FENDP"] ∧
    Instr.rdst.mnemonic ∉ ["EXTB", "RDTBL", "FBYTE", "FENDC", "FENDP"] :=
  ⟨next_of (by decide +kernel), by decide, by decide, by decide, next_of (by decide +kernel), by decide, by decide,
    by decide⟩

theorem witness_ReadingCommandsHaveNoSideEffect :
    (Instr.rdtbl 0#8).mnemonic ∈ ["RDTBL", "RDACC", "FINAL", "RDST", "RDRX", "RDEX", "RDLEN"] ∧
    (∃ t, exec (.rdtbl 0#8) (machine taken12 []) = .next t) ∧ ∃ t, exec (.rdtbl 0#8) State.reset = .next t :=
  ⟨by decide, next_of (by decide +kernel), next_of (by decide +kernel)⟩

theorem witness_ValidatorNeverReadsAcc :
    (Instr.fbyte 0#8).mnemonic ∈ ["FSTART", "FBYTE", "FENDC", "FENDP"] ∧
    ∃ t, exec (.fbyte 0#8) (machine taken12 []) = .next t := ⟨by decide, next_of (by decide +kernel)⟩

theorem witness_EngineNeverReadsVacc :
    (Instr.extb 0#8).mnemonic ∈ ["TINIT", "SEED", "LDACC", "EXTB", "FINAL", "RDACC", "RDTBL"] ∧
    ∃ t, exec (.extb 0#8) (machine taken12 []) = .next t := ⟨by decide, next_of (by decide +kernel)⟩

theorem witness_UnbuiltTableIsUnobservable : State.reset.block.tv = false := rfl

theorem witness_VerdictIsWrittenByFrameEndOnly :
    (∃ t, exec .fendc (machine taken12 []) = .next t) ∧ (machine taken12 []).block.phase = .opened :=
  ⟨next_of (by decide +kernel), rfl⟩

theorem witness_PhaseMachine :
    decode 0#40 = .error .opcode ∧ (machine taken12 [.cmd 0#40]).host = .cmd 0#40 :: [] ∧
    (∃ t, exec (.fbyte 0#8) (machine taken12 []) = .next t) ∧ taken12.phase = .opened ∧
    (∃ t, exec (.fbyte 0#8) (machine built []) = .next t) ∧ built.phase = .idle :=
  ⟨rfl, rfl, next_of (by decide +kernel), rfl, next_of (by decide +kernel), rfl⟩

theorem witness_TinitBuildsTheTable : Inv (machine taken12 []) ∧ (machine taken12 []).block.tv = true :=
  ⟨witness_inv [], rfl⟩

theorem witness_ExtbExtendsByOneByte :
    (TableBuilt taken12 ∧ taken12.tv = true) ∧ State.reset.block.tv = false := ⟨⟨taken12_built, rfl⟩, rfl⟩

theorem witness_RdtblReadsAnEntry :
    (TableBuilt taken12 ∧ taken12.tv = true) ∧ State.reset.block.tv = false := ⟨⟨taken12_built, rfl⟩, rfl⟩

/-- Each clause of `FBYTE`, the accepted one at both ends of the counter's range. -/
theorem witness_FbyteTakesTheNextByte :
    (TableBuilt opened ∧ opened.tv = true ∧ opened.phase = .opened ∧ opened.fcnt ≠ 0xFFFFFFFF#32) ∧
    ((0xFFFFFFFE#32 : Word) ≠ 0xFFFFFFFF#32 ∧ TableBuilt { taken12 with fcnt := 0xFFFFFFFE#32 }) ∧
    State.reset.block.tv = false ∧ (built.tv = true ∧ built.phase = .idle) ∧
    (full.tv = true ∧ full.phase = .opened ∧ full.fcnt = 0xFFFFFFFF#32) :=
  ⟨⟨fun _ => built_table, rfl, rfl, by decide⟩, ⟨by decide, fun _ => built_table⟩, rfl, ⟨rfl, rfl⟩, rfl, rfl, rfl⟩

/-- Each clause of a frame end, at the lengths where they meet: 7 and 8. -/
theorem witness_FendcJudgesAgainstTheComputedCrc :
    built.phase = .idle ∧ (∃ b : Block, b.phase = .opened ∧ b.fcnt.toNat = 7) ∧
    (∃ b : Block, b.phase = .opened ∧ 8 ≤ b.fcnt.toNat ∧ b.fcnt.toNat = 8 ∧ b.hsok = false) ∧
    (∃ b : Block, b.phase = .opened ∧ 8 ≤ b.fcnt.toNat ∧ b.fcnt.toNat = 8 ∧ b.hsok = true) :=
  ⟨rfl, ⟨{ opened with fcnt := 7#32 }, rfl, rfl⟩,
    ⟨{ opened with fcnt := 8#32, hsok := false }, rfl, by decide, rfl, rfl⟩,
    ⟨{ opened with fcnt := 8#32 }, rfl, by decide, rfl, rfl⟩⟩

theorem witness_FendpJudgesAgainstTheSuppliedCrc :
    (machine built []).block.phase = .idle ∧ (machine opened []).block.phase = .opened ∧
    (machine opened []).block.fcnt.toNat < 8 ∧
    (8 ≤ (machine taken12 []).block.fcnt.toNat ∧ (machine taken12 []).block.hsok = true) ∧
    (8 ≤ (machine { taken12 with hsok := false } []).block.fcnt.toNat ∧
      (machine { taken12 with hsok := false } []).block.hsok = false) := by
  refine ⟨rfl, rfl, ?_, ⟨?_, rfl⟩, ?_, rfl⟩ <;> decide

theorem witness_FlippedBitAfterPreambleIsCrcMismatch :
    (64 ≤ 64 ∧ 64 < 8 * (([0#8] : List Byte).length + 12)) ∧ (64 ≤ 103 ∧ 103 < 8 * (([0#8] : List Byte).length + 12)) :=
  by decide

theorem witness_FlippedBitInPreambleIsBadHandshake : 0 < 64 ∧ 63 < 64 := by decide

theorem witness_GoodFramesAreWellFormed :
    8 ≤ preamble.length ∧ preamble.length ≤ 11 ∧ preamble.take 8 = preamble := by decide

/-- Each clause, at the lengths 7 and 8 where they meet. -/
theorem witness_SuppliedCrcReplacesComputedCrc :
    8 ≤ (mkframe []).length ∧ (preamble.take 7).length = 7 ∧ (preamble.take 7).length < 8 ∧
    (8 ≤ preamble.length ∧ preamble.length = 8 ∧ preamble.take 8 = preamble) ∧
    (8 ≤ (List.replicate 8 0#8).length ∧ (List.replicate 8 (0#8 : Byte)).take 8 ≠ preamble) ∧
    (∃ r e, validate (mkframe []) none = .good r e ∧ (0#32 : Word) ≠ e) ∧
    (∃ r e, validate preamble none = .mismatch r e) :=
  ⟨by decide +kernel, rfl, by decide, by decide, by decide, ⟨0x607E742C#32, 0x607E742C#32, by decide +kernel, by decide⟩,
    ⟨0xAA55AA55#32, 0x260C3B3E#32, by decide +kernel⟩⟩

/-- A mismatched frame supplied with a value that is neither its received nor its computed checksum. -/
theorem witness_SuppliedCrcReplacesComputedCrc_third :
    validate preamble none = .mismatch 0xAA55AA55#32 0x260C3B3E#32 ∧
    (0x12345678#32 : Word) ≠ 0xAA55AA55#32 ∧ (0x12345678#32 : Word) ≠ 0x260C3B3E#32 ∧
    validate preamble (some 0x12345678#32) = .mismatch 0xAA55AA55#32 0x12345678#32 :=
  ⟨by decide +kernel, by decide, by decide, by decide +kernel⟩

/-- Acts with an `EXTB`, a refused word and a frame command between its bytes. -/
theorem witness_ExtbCommandsComputeExtend :
    let acts : List HostAct := [.cmd 0x0400000031#40, .cmd 0#40, .cmd 0x0800000000#40, .cmd 0x0400000032#40]
    Inv (machine taken12 acts) ∧ taken12.tv = true ∧ (machine taken12 acts).host = acts ++ [] ∧
    (∀ a ∈ acts, a.keepsComputation = true) ∧ extbBytes acts = [0x31#8, 0x32#8] :=
  ⟨witness_inv _, rfl, rfl, by decide, by decide⟩

theorem witness_ComputeSequenceAnswersCompute :
    let s := machine taken12 (.cmd (encode .seed) :: (([0x31#8].map fun b => HostAct.cmd (encode (.extb b))) ++
      .cmd (encode .final) :: []))
    TableBuilt s.block ∧ s.block.tv = true ∧
    s.host = .cmd (encode .seed) :: ([0x31#8].map fun b => .cmd (encode (.extb b))) ++ .cmd (encode .final) :: [] :=
  ⟨taken12_built, rfl, rfl⟩

theorem witness_SavedComputationIsResumed :
    let s := machine taken12 (.cmd (encode (.ldacc (extend 0xFFFFFFFF#32 [0x31#8]))) ::
      (([0x32#8].map fun b => HostAct.cmd (encode (.extb b))) ++ .cmd (encode .final) :: []))
    TableBuilt s.block ∧ s.block.tv = true ∧
    s.host = .cmd (encode (.ldacc (extend 0xFFFFFFFF#32 [0x31#8]))) ::
      ([0x32#8].map fun b => .cmd (encode (.extb b))) ++ .cmd (encode .final) :: [] :=
  ⟨taken12_built, rfl, rfl⟩

/-- Acts with frame bytes, a refused word and an `EXTB` between them, then a frame end. -/
theorem witness_FbyteCommandsTrackTheFrame :
    let acts : List HostAct := [.cmd 0x09000000AA#40, .cmd 0#40, .cmd 0x0400000032#40, .cmd 0x0900000055#40]
    let s := machine taken12 (.cmd (encode .fstart) :: (acts ++ [.cmd (encode .fendc)]))
    Inv s ∧ s.block.tv = true ∧ s.host = .cmd (encode .fstart) :: acts ++ [.cmd (encode .fendc)] ∧
    (∀ a ∈ acts, a.keepsFrame = true) ∧ (fbyteBytes acts).length ≤ 4294967295 ∧
    fbyteBytes acts = [0xAA#8, 0x55#8] :=
  ⟨witness_inv _, rfl, rfl, by decide, by decide, by decide⟩

theorem witness_FrameEndAnswersValidate :
    let acts : List HostAct := [.cmd 0x09000000AA#40]
    let s := machine taken12 (.cmd (encode .fstart) :: (acts ++ [.cmd (encode (.fendp 7#32))]))
    Inv s ∧ s.block.tv = true ∧ s.host = .cmd (encode .fstart) :: acts ++
      .cmd (encode (match (some 7#32 : Option Word) with | none => .fendc | some v => .fendp v)) :: [] ∧
    (∀ a ∈ acts, a.keepsFrame = true) ∧ (fbyteBytes acts).length ≤ 4294967295 :=
  ⟨witness_inv _, rfl, rfl, by decide, by decide⟩

/-- The same for `FENDC`, with a frame that reaches the comparison: the twelve bytes of `mkframe([])`. -/
theorem witness_FrameEndAnswersValidate_compared :
    let acts : List HostAct := (mkframe []).map fun b => .cmd (encode (.fbyte b))
    let s := machine taken12 (.cmd (encode .fstart) :: (acts ++ [.cmd (encode .fendc)]))
    Inv s ∧ s.block.tv = true ∧ s.host = .cmd (encode .fstart) :: acts ++
      .cmd (encode (match (none : Option Word) with | none => .fendc | some v => .fendp v)) :: [] ∧
    (∀ a ∈ acts, a.keepsFrame = true) ∧ (fbyteBytes acts).length ≤ 4294967295 ∧
    validate (fbyteBytes acts) none = .good 0x607E742C#32 0x607E742C#32 :=
  ⟨witness_inv _, rfl, rfl, by decide +kernel, by decide +kernel, by decide +kernel⟩

/-- An `EXTB`, and an act that is none. -/
theorem witness_EachActAdvancesTheComputation :
    (Inv (machine taken12 [.cmd 0x0400000031#40]) ∧ taken12.tv = true ∧
      (machine taken12 [.cmd 0x0400000031#40]).host = .cmd 0x0400000031#40 :: [] ∧
      (HostAct.cmd 0x0400000031#40).keepsComputation = true) ∧
    (Inv (machine taken12 [.cmd 0#40]) ∧ (HostAct.cmd 0#40).keepsComputation = true) :=
  ⟨⟨witness_inv _, rfl, rfl, rfl⟩, witness_inv _, rfl⟩

/-- A frame of `n` zero bytes, at least eight of them, taken. -/
def zeros (n : Nat) : Block :=
  { opened with
    fcnt := BitVec.ofNat 32 n, hsok := false, vacc := extend 0xFFFFFFFF#32 ((List.replicate n 0#8).take (n - 4)) }

theorem zeros_taken (n : Nat) (h8 : 8 ≤ n) (hn : n < 2 ^ 32) : FrameTaken (List.replicate n 0#8) (zeros n) where
  phase := rfl
  count := by rw [List.length_replicate]; exact Nat.mod_eq_of_lt hn
  handshake := by
    refine ⟨fun h => (by cases h), fun h => ?_⟩
    have h0 := h 0 (by rw [List.length_replicate]; omega)
    rw [List.getElem?_replicate, if_pos (by omega)] at h0
    exact absurd h0 (by decide)
  window := by
    rw [List.length_replicate, List.drop_replicate, Nat.sub_eq_zero_of_le (by omega), Nat.sub_sub_self (by omega)]
    rfl
  accumulator := by rw [List.length_replicate]; rfl

theorem zeros_inv (n : Nat) (h8 : 8 ≤ n) (hn : n < 2 ^ 32) (acts : List HostAct) : Inv (machine (zeros n) acts) where
  memory := built_wf
  table := fun _ => built_table
  frameNeedsTable _ _ := rfl
  noVerdict _ := ⟨rfl, rfl⟩
  window h := by
    have hc : (zeros n).fcnt.toNat = n := Nat.mod_eq_of_lt hn
    have h' : (zeros n).fcnt.toNat < 4 := h
    omega
  verdictOk h := by cases h
  verdictCrc h := by cases h

/-- The hypotheses of the step of a frame, for an `FBYTE` after `n` zero bytes. -/
def frameStepPremises (n : Nat) : Prop :=
  Inv (machine (zeros n) [.cmd 0x0900000000#40]) ∧ (zeros n).tv = true ∧
  FrameTaken (List.replicate n 0#8) (zeros n) ∧
  (machine (zeros n) [.cmd 0x0900000000#40]).host = .cmd 0x0900000000#40 :: [] ∧
  (HostAct.cmd 0x0900000000#40).keepsFrame = true ∧ (fbyteBytes [.cmd 0x0900000000#40]).length = 1

theorem frame_step_premises (n : Nat) (h8 : 8 ≤ n) (hn : n < 2 ^ 32) : frameStepPremises n :=
  ⟨zeros_inv n h8 hn _, rfl, zeros_taken n h8 hn, rfl, rfl, rfl⟩

/-- Each clause of the step of a frame at its boundary: the last byte the counter can take, and one byte more. -/
theorem witness_EachActAdvancesTheFrame :
    (frameStepPremises 4294967294 ∧ (List.replicate 4294967294 (0#8 : Byte)).length + 1 ≤ 4294967295) ∧
    (frameStepPremises 4294967295 ∧ 4294967295 < (List.replicate 4294967295 (0#8 : Byte)).length + 1) := by
  refine ⟨⟨frame_step_premises _ (by omega) (by omega), ?_⟩, frame_step_premises _ (by omega) (by omega), ?_⟩ <;>
    simp only [List.length_replicate] <;> omega

end Sys2Proof.Tests
end

section
/-! PROOFS. The opcode map of 30_encoding.md R47 against the decoder: a row is found by its opcode, and what is left of
its mask is the check of its operand form (R48, R49). -/

namespace Sys2Proof

/-- The opcode a row stands for: bits 39:32 of its pattern (30_encoding.md R45). -/
def OpRow.op (r : OpRow) : BitVec 8 := r.pattern.extractLsb' 32 8

/-- The bits of `arg` that must be zero in a form (30_encoding.md R48). -/
def Form.zeroMask : Form → Word
  | .none => BitVec.allOnes 32
  | .byte => 0xFFFFFF00#32
  | .word => 0#32

/-- Masking off the low byte leaves nothing exactly when `arg[31:8]` is zero. -/
theorem and_byteMask_eq_zero_iff (arg : Word) : arg &&& 0xFFFFFF00#32 = 0#32 ↔ arg.extractLsb' 8 24 = 0#24 := by
  constructor
  · intro h
    have hmask : BitVec.extractLsb' 8 24 0xFFFFFF00#32 = BitVec.allOnes 24 := by decide
    have htop := congrArg (BitVec.extractLsb' 8 24) h
    rwa [BitVec.extractLsb'_and, hmask, BitVec.and_allOnes] at htop
  · intro h
    rw [← setWidth_of_byte arg h]
    refine BitVec.eq_of_getLsbD_eq fun i hi => ?_
    by_cases hlow : i < 8
    · have hmask : BitVec.getLsbD 0xFFFFFF00#32 i = false := by interval_cases i <;> rfl
      rw [BitVec.getLsbD_and, hmask, Bool.and_false, BitVec.getLsbD_zero]
    · simp [BitVec.getLsbD_of_ge _ i (Nat.not_lt.mp hlow)]

theorem and_zeroMask_eq_zero_iff (f : Form) (arg : Word) :
    arg &&& f.zeroMask = 0#32 ↔ operandCheck f arg = none := by
  cases f with
  | none => rw [Form.zeroMask, BitVec.and_allOnes]; simp [operandCheck]
  | byte => simp [Form.zeroMask, operandCheck, and_byteMask_eq_zero_iff]
  | word => simp [Form.zeroMask, operandCheck]

/-- Masking a word is masking its two fields. -/
theorem and_append_eq_append_iff (w : CmdWord) (opMask op : BitVec 8) (argMask arg : Word) :
    w &&& (opMask ++ argMask : CmdWord) = (op ++ arg : CmdWord) ↔
      w.extractLsb' 32 8 &&& opMask = op ∧ w.extractLsb' 0 32 &&& argMask = arg := by
  constructor
  · intro h
    have hop := congrArg (BitVec.extractLsb' 32 8) h
    have harg := congrArg (BitVec.extractLsb' 0 32) h
    rw [BitVec.extractLsb'_and, word_op, word_op] at hop
    rw [BitVec.extractLsb'_and, word_arg, word_arg] at harg
    exact ⟨hop, harg⟩
  · rintro ⟨rfl, rfl⟩
    conv_lhs => rw [← word_eta w]
    exact BitVec.and_append

/-- Every row tests the whole opcode and the operand bits its form wants zero. -/
theorem opcodeMap_row_shape : ∀ r ∈ opcodeMap, r.pattern = (r.op ++ 0#32 : CmdWord) ∧
    (formOf r.op.toNat).map (fun f => (BitVec.allOnes 8 ++ f.zeroMask : CmdWord)) = some r.mask := by
  decide

/-- A word matches a row exactly when it has the row's opcode and its operand passes the checks of R49. -/
theorem matches_row_iff {r : OpRow} (hr : r ∈ opcodeMap) (w : CmdWord) :
    w &&& r.mask = r.pattern ↔ w.extractLsb' 32 8 = r.op ∧ CmdWord.wf w = true := by
  obtain ⟨hpattern, hform⟩ := opcodeMap_row_shape r hr
  obtain ⟨f, hf, hmask⟩ := Option.map_eq_some_iff.mp hform
  rw [← hmask, hpattern, and_append_eq_append_iff, BitVec.and_allOnes, and_zeroMask_eq_zero_iff]
  refine and_congr_right fun hop => ?_
  simp [CmdWord.wf, fieldCheck, hop, hf]

theorem opcodeMap_op_injective : ∀ r ∈ opcodeMap, ∀ r' ∈ opcodeMap, r.op = r'.op → r = r' := by
  decide

/-- Every command has a row, with its mnemonic and its opcode. -/
theorem exists_row_of_instr (i : Instr) : ∃ r ∈ opcodeMap, r.mnemonic = i.mnemonic ∧ r.op = i.opcode := by
  cases i <;> simp [opcodeMap, OpRow.op, Instr.mnemonic, Instr.opcode]

/-- A decoded command has the opcode of its word. -/
theorem decode_ok_opcode {w : CmdWord} {i : Instr} (h : decode w = .ok i) : w.extractLsb' 32 8 = i.opcode := by
  refine BitVec.eq_of_toNat_eq ?_
  unfold decode decodeFields at h
  split at h
  case h_16 => cases h
  case h_3 hop | h_11 hop => cases h; exact hop
  case h_4 hop | h_7 hop | h_9 hop =>
    obtain ⟨-, rfl⟩ := (decodeByte_ok _ _ _).mp h
    exact hop
  all_goals
    obtain ⟨-, rfl⟩ := (decodeNone_ok _ _ _).mp h
    assumption

/-- A word that decodes to a command matches the row of that command's opcode. -/
theorem decode_ok_matches_row {w : CmdWord} {i : Instr} (h : decode w = .ok i) {r : OpRow} (hr : r ∈ opcodeMap)
    (hop : r.op = i.opcode) : w &&& r.mask = r.pattern :=
  (matches_row_iff hr w).mpr ⟨(decode_ok_opcode h).trans hop.symm, (wf_iff_decodes w).mpr ⟨i, h⟩⟩

/-- A word matches at most one row of the map. -/
theorem matched_row_unique {w : CmdWord} {r r' : OpRow} (hr : r ∈ opcodeMap) (hr' : r' ∈ opcodeMap)
    (h : w &&& r.mask = r.pattern) (h' : w &&& r'.mask = r'.pattern) : r = r' :=
  opcodeMap_op_injective r hr r' hr' (((matches_row_iff hr w).mp h).1.symm.trans ((matches_row_iff hr' w).mp h').1)

/-- Settles O4: a matched row and the row of the decoded command have one opcode, and no two rows share one. -/
theorem opcodeMapGivesTheCommand : Obligations.OpcodeMapGivesTheCommand := by
  intro w
  refine ⟨fun i hi => ?_, fun r hr hmatch => ?_, fun r hr r' hr' => matched_row_unique hr hr'⟩
  · obtain ⟨r, hr, hname, hop⟩ := exists_row_of_instr i
    exact ⟨r, hr, hname, decode_ok_matches_row hi hr hop⟩
  · obtain ⟨-, hwf⟩ := (matches_row_iff hr w).mp hmatch
    obtain ⟨i, hi⟩ := (wf_iff_decodes w).mp hwf
    obtain ⟨r', hr', hname, hop⟩ := exists_row_of_instr i
    obtain rfl : r = r' := matched_row_unique hr hr' hmatch (decode_ok_matches_row hi hr' hop)
    exact ⟨i, hi, hname.symm⟩

end Sys2Proof
end

section
/-! PROOFS. `exec` in the terms the statements use: a command whose effect is known is answered, one whose error is
known is refused. -/

namespace Sys2Proof.Machine

/-- A command that is accepted with the effect of its rule answers with it. -/
theorem exec_answered {i : Instr} {s : State} {b : Block} {v : Word} (h : Accepts i s.block b v) :
    exec i s = .next (answered s b v) :=
  (exec_next i s _).mpr (.inl ⟨b, v, h, rfl⟩)

/-- A command that its rule refuses with an error answers the code of that error (60_exceptions.md R124). -/
theorem exec_refused {i : Instr} {s : State} {e : ProtoError} (h : Refuses i s.block e) :
    exec i s = .next (refusedWith s e.code) :=
  (exec_next i s _).mpr (.inr ⟨e, h, rfl⟩)

end Sys2Proof.Machine
end

section
/-! PROOFS. The engine of 40_crc_engine.md: the words and the meanings of its seven commands, and extension over a
split. -/

namespace Sys2Proof.Machine

/-- A form B word is its opcode, 24 zero bits and its byte (30_encoding.md R48). -/
theorem append_setWidth_byte (op : BitVec 8) (b : Byte) :
    (op ++ b.setWidth 32 : CmdWord) = op ++ 0#24 ++ b := by
  have hzext : b.setWidth 32 = (0#24 ++ b : Word) := BitVec.setWidth_eq_append (by decide)
  rw [hzext, BitVec.append_assoc]
  rfl

/-- `TINIT`'s writes leave a block whose table is built as it was (40_crc_engine.md R70). -/
theorem Block.withTable_of_built {b : Block} (hwf : Memory.wf b.table = true) (hbuilt : TableBuilt b)
    (htv : b.tv = true) : b.withTable = b := by
  rw [Block.withTable, buildTable_of_built b.table hwf (hbuilt htv), ← htv]

/-- Settles O29: the table of `TINIT` reads as `tbl`, and a built table in canonical form is that table already. -/
theorem tinitBuildsTheTable : Obligations.TinitBuildsTheTable := by
  refine ⟨rfl, fun s => ⟨buildTable s.block.table, ?_, ?_⟩, fun s hinv htv => ?_⟩
  · exact exec_answered ⟨rfl, rfl⟩
  · exact tblRead_buildTable s.block.table
  · have hsame : s.block.withTable = s.block := Block.withTable_of_built hinv.memory hinv.table htv
    exact exec_answered ⟨hsame.symm, rfl⟩

/-- Settles O30: `SEED` has no refusal, and its effect asks nothing of the state. -/
theorem seedStartsAComputation : Obligations.SeedStartsAComputation :=
  ⟨rfl, fun _ => exec_answered ⟨rfl, rfl⟩⟩

/-- Settles O31: `LDACC` has no refusal, and takes every value. -/
theorem ldaccLoadsTheAccumulator : Obligations.LdaccLoadsTheAccumulator :=
  fun _ _ => ⟨rfl, exec_answered ⟨rfl, rfl⟩⟩

/-- Settles O32: the entry `EXTB` looks up is `tbl` of its index, which makes its effect a `crc_step`. -/
theorem extbExtendsByOneByte : Obligations.ExtbExtendsByOneByte := by
  refine fun b s => ⟨append_setWidth_byte _ b, fun hbuilt htv => ?_, fun htv => ?_⟩
  · have hentry := hbuilt htv (tableIndex s.block.acc b)
    exact exec_answered ⟨htv, rfl, _, hentry, by rw [crcStep_eq, Block.withAcc]⟩
  · exact exec_refused (e := .noTbl) ⟨htv, rfl⟩

/-- Settles O33: `FINAL` has no refusal, and its effect leaves the block. -/
theorem finalReadsTheChecksum : Obligations.FinalReadsTheChecksum :=
  ⟨rfl, fun _ => exec_answered ⟨rfl, rfl⟩⟩

/-- Settles O34: `RDACC` has no refusal, and its effect leaves the block. -/
theorem rdaccReadsTheAccumulator : Obligations.RdaccReadsTheAccumulator :=
  ⟨rfl, fun _ => exec_answered ⟨rfl, rfl⟩⟩

/-- Settles O35: in a built table the entry at every index is `tbl` of it. -/
theorem rdtblReadsAnEntry : Obligations.RdtblReadsAnEntry := by
  refine fun i s => ⟨append_setWidth_byte _ i, fun hbuilt htv => ?_, fun htv => ?_⟩
  · exact exec_answered ⟨htv, rfl, hbuilt htv i⟩
  · exact exec_refused (e := .noTbl) ⟨htv, rfl⟩

/-- Extending with a concatenation is extending with its parts in turn (40_crc_engine.md R67). -/
theorem extend_append (a : Word) (d e : List Byte) : extend a (d ++ e) = extend (extend a d) e := by
  induction d generalizing a with
  | nil => rfl
  | cons b d ih => exact ih (crcStep a b)

/-- Settles O43: by induction on the first part, for every accumulator. -/
theorem extendSplits : Obligations.ExtendSplits :=
  ⟨extend_append, fun d e => by rw [compute, extend_append]⟩

end Sys2Proof.Machine
end

section
/-! PROOFS. The validator's commands of 41_frame_validator.md section 3: what each does to the open frame, and the phase
machine they drive. -/

namespace Sys2Proof.Machine

/-- Settles O36: `FSTART` has no refusal, and its effect asks nothing of the state. -/
theorem fstartOpensAFrame : Obligations.FstartOpensAFrame :=
  ⟨rfl, fun _ => exec_answered ⟨rfl, rfl⟩⟩

/-! ## `FBYTE` -/

/-- With the table built, the byte that leaves the window from the fifth byte of a frame on advances `VACC` by a
`crc_step` (41_frame_validator.md R101). -/
theorem fed_of_built {b : Block} (hbuilt : TableBuilt b) (htv : b.tv = true) :
    Fed b (if 4 ≤ b.fcnt.toNat then crcStep b.vacc (oldestByte b.win) else b.vacc) := by
  by_cases hleaves : 4 ≤ b.fcnt.toNat
  · rw [if_pos hleaves]
    exact .inl ⟨hleaves, _, hbuilt htv _, (crcStep_eq _ _).symm⟩
  · rw [if_neg hleaves]
    exact .inr ⟨Nat.lt_of_not_le hleaves, rfl⟩

/-- The byte `HSOK` is judged by is the entry of the preamble at the byte's place (41_frame_validator.md R91, R101). -/
theorem hsokAfter_eq (b : Block) (x : Byte) :
    hsokAfter b x = if b.fcnt.toNat < 8 ∧ preamble[b.fcnt.toNat]? ≠ some x then false else b.hsok := by
  by_cases hpre : b.fcnt.toNat < 8
  · have hentry : preamble[b.fcnt.toNat]? = some (preByte b.fcnt.toNat) := preamble_getElem? ⟨_, hpre⟩
    simp only [hsokAfter, hentry, ne_eq, Option.some.injEq, eq_comm]
  · simp [hsokAfter, hpre]

/-- A counter below its maximum goes up by one without wrapping. -/
theorem toNat_add_one_of_ne_max {c : Word} (h : c ≠ 0xFFFFFFFF#32) : (c + 1#32).toNat = c.toNat + 1 :=
  BitVec.toNat_add_of_lt (by bv_omega)

/-- Settles O37: by the branches of R101; the accepted one feeds `VACC` a `tbl` entry and judges `HSOK` by the preamble. -/
theorem fbyteTakesTheNextByte : Obligations.FbyteTakesTheNextByte := by
  refine fun b s => ⟨append_setWidth_byte _ b, fun hbuilt htv hopen hnotFull => ⟨?_, ?_⟩, fun htv => ?_,
    fun htv hidle => ?_, fun htv hopen hfull => ?_⟩
  · exact toNat_add_one_of_ne_max hnotFull
  · have hcount : s.block.fcnt.toNat ≠ 4294967295 := fun h => hnotFull (BitVec.eq_of_toNat_eq h)
    rw [← hsokAfter_eq]
    exact exec_answered ⟨htv, hopen, hcount, rfl, _, fed_of_built hbuilt htv, rfl⟩
  · exact exec_refused (e := .noTbl) (.inl ⟨htv, rfl⟩)
  · exact exec_refused (e := .seq) (.inr (.inl ⟨htv, hidle, rfl⟩))
  · exact exec_refused (e := .len) (.inr (.inr ⟨htv, hopen, congrArg BitVec.toNat hfull, rfl⟩))

/-! ## The frame-end commands -/

/-- `FENDC` is `FENDP` with the CRC the validator computed (41_frame_validator.md R102, R103). -/
theorem exec_fendc (s : State) : exec .fendc s = exec (.fendp (s.block.vacc ^^^ 0xFFFFFFFF#32)) s := rfl

/-- A frame end answers the code of the verdict it leaves in `VERDICT` (41_frame_validator.md R102). -/
theorem exec_fendp_of_opened {s : State} {v : Word} {b : Block} {verdict : Verdict} (hopen : s.block.phase = .opened)
    (hclose : frameVerdict s.block v = verdict ∧ s.block.closeFrame v = b) :
    exec (.fendp v) s = .next (answered s b (verdict.code.setWidth 32)) := by
  obtain ⟨rfl, rfl⟩ := hclose
  exact exec_answered ⟨hopen, rfl, rfl⟩

/-- The value a made comparison answers: 1 for `V_OK`, 4 for `V_CRC` (41_frame_validator.md R102). -/
theorem code_of_comparison (c : Prop) [Decidable c] :
    (if c then Verdict.ok else .crc).code.setWidth 32 = if c then 1#32 else 4#32 := by
  split <;> rfl

/-- Settles O39: by the cases of a frame end, each with the block it leaves. -/
theorem fendpJudgesAgainstTheSuppliedCrc : Obligations.FendpJudgesAgainstTheSuppliedCrc := by
  refine fun v s => ⟨rfl, fun hidle => ?_, fun hopen => ⟨fun hshort => ?_, fun hlong hbad => ?_, fun hlong hgood => ?_⟩⟩
  · exact exec_refused (e := .seq) ⟨hidle, rfl⟩
  · exact exec_fendp_of_opened hopen (closeFrame_short s.block v hshort)
  · exact exec_fendp_of_opened hopen (closeFrame_hs s.block v hlong hbad)
  · rw [← code_of_comparison]
    exact exec_fendp_of_opened hopen (closeFrame_compared s.block v hlong hgood)

/-- Settles O38: `FENDC` is the case of `FENDP` whose operand is the computed CRC. -/
theorem fendcJudgesAgainstTheComputedCrc : Obligations.FendcJudgesAgainstTheComputedCrc := by
  refine ⟨rfl, fun s => ?_⟩
  obtain ⟨-, hclauses⟩ := fendpJudgesAgainstTheSuppliedCrc (s.block.vacc ^^^ 0xFFFFFFFF#32) s
  rwa [exec_fendc]

/-! ## `RDST` -/

/-- `STATUS`, bit by bit: the four flags, then the code of the verdict (10_state.md R14). -/
theorem statusWord_getLsbD (b : Block) (i : Nat) : (statusWord b).getLsbD i =
    match i with
    | 0 => b.tv
    | 1 => b.phase.bit
    | 2 => b.hsok
    | 3 => b.err
    | j + 4 => b.verdict.code.getLsbD j := by
  have happend : (statusWord b).getLsbD i = BitVec.getLsbD (w := 25 + 3 + 1 + 1 + 1 + 1)
      (0#25 ++ b.verdict.code ++ BitVec.ofBool b.err ++ BitVec.ofBool b.hsok ++ BitVec.ofBool b.phase.bit ++
        BitVec.ofBool b.tv) i := rfl
  simp only [happend, BitVec.getLsbD_append]
  match i with
  | 0 | 1 | 2 | 3 => simp
  | j + 4 => simpa using BitVec.lt_of_getLsbD

/-- Bits 6:4 of `STATUS` are the code of the verdict (10_state.md R14). -/
theorem statusWord_verdict (b : Block) : (statusWord b).extractLsb' 4 3 = b.verdict.code := by
  refine BitVec.eq_of_getLsbD_eq fun j hj => ?_
  simp [Nat.add_comm 4 j, statusWord_getLsbD, hj]

/-- Bits 31:7 of `STATUS` are zeros (10_state.md R14). -/
theorem statusWord_zeros (b : Block) : (statusWord b).extractLsb' 7 25 = 0#25 := by
  refine BitVec.eq_of_getLsbD_eq fun j hj => ?_
  simp [BitVec.getLsbD_extractLsb', Nat.add_comm 7 j, statusWord_getLsbD]

theorem Phase.bit_eq_beq_opened (p : Phase) : p.bit = (p == .opened) := by
  cases p <;> rfl

/-- Settles O40: `RDST` has no refusal, and the value it answers is read off `STATUS` field by field. -/
theorem rdstReadsStatus : Obligations.RdstReadsStatus := by
  refine ⟨rfl, rfl, fun s => ⟨statusWord s.block, exec_answered ⟨rfl, rfl⟩, ?_, ?_, ?_, ?_, ?_, ?_⟩⟩
  · exact statusWord_getLsbD s.block 0
  · exact (statusWord_getLsbD s.block 1).trans (Phase.bit_eq_beq_opened s.block.phase)
  · exact statusWord_getLsbD s.block 2
  · exact statusWord_getLsbD s.block 3
  · exact statusWord_verdict s.block
  · exact statusWord_zeros s.block

/-! ## The phase machine -/

/-- An illegal word is refused `E_ILL` (30_encoding.md R49, 60_exceptions.md R124). -/
theorem step_illegal {w : CmdWord} {e : Illegal} {s : State} {rest : List HostAct} (hw : decode w = .error e)
    (hhost : s.host = .cmd w :: rest) : step s = .next (refusedWith { s with host := rest } 1#4) := by
  rw [step_cons s _ rest hhost]
  exact (issue_next w _ _).mpr (.inr (.inr ⟨e, hw, rfl⟩))

/-- Settles O28: a refusal keeps the phase whatever the command, and an accepted command moves it as its effect says. -/
theorem phaseMachine : Obligations.PhaseMachine := by
  refine ⟨fun s => ⟨rfl, rfl⟩, fun w e s rest hw hhost => ⟨_, step_illegal hw hhost, rfl⟩, fun i s t hexec => ?_⟩
  obtain ⟨b, v, hacc, rfl⟩ | ⟨e, href, rfl⟩ := (exec_next i s t).mp hexec
  · cases i with
    | fstart =>
      obtain ⟨rfl, rfl⟩ := hacc
      exact ⟨rfl, rfl, rfl, rfl, rfl⟩
    | fendc | fendp x =>
      obtain ⟨hopen, rfl, rfl⟩ := hacc
      exact ⟨rfl, fun hidle => (nomatch hopen.symm.trans hidle)⟩
    | fbyte x =>
      obtain ⟨-, hopen, -, rfl, a, -, rfl⟩ := hacc
      exact ⟨rfl, fun hidle => (nomatch hopen.symm.trans hidle), fun _ => .inl ⟨0#32, rfl⟩⟩
    | extb x =>
      obtain ⟨-, -, a, -, rfl⟩ := hacc
      rfl
    | rdtbl k =>
      obtain ⟨-, rfl, -⟩ := hacc
      rfl
    | tinit | seed | ldacc x | final | rdacc | rdst | rdrx | rdex | rdlen =>
      obtain ⟨rfl, -⟩ := hacc
      rfl
  · cases i with
    | fendc | fendp x =>
      obtain ⟨hidle, rfl⟩ := href
      exact ⟨hidle, fun _ => rfl⟩
    | fbyte x =>
      obtain ⟨htv, rfl⟩ | ⟨htv, hidle, rfl⟩ | ⟨htv, hopen, -, rfl⟩ := href
      · exact ⟨rfl, fun _ => by rw [htv]; rfl, fun _ => .inr (.inl rfl)⟩
      · exact ⟨rfl, fun _ => by rw [htv]; rfl, fun hopen => (nomatch hopen.symm.trans hidle)⟩
      · exact ⟨rfl, fun hidle => (nomatch hopen.symm.trans hidle), fun _ => .inr (.inr rfl)⟩
    | extb | rdtbl => rfl
    | fstart | tinit | seed | ldacc | final | rdacc | rdst | rdrx | rdex | rdlen => exact href.elim

end Sys2Proof.Machine
end

section
/-! PROOFS. The function `validate` of 41_frame_validator.md R95, by its three branches. -/

namespace Sys2Proof.Machine

theorem validate_short {f : List Byte} (p : Option Word) (h : f.length < 8) : validate f p = .short := if_pos h

theorem validate_badHandshake {f : List Byte} (p : Option Word) (hlen : 8 ≤ f.length) (hpre : f.take 8 ≠ preamble) :
    validate f p = .badHandshake :=
  (if_neg (Nat.not_lt.mpr hlen)).trans (if_pos hpre)

/-- The last step of R95: the received checksum against the expected one, both reported. -/
def compareCrcs (received expected : Word) : Judgement :=
  if received = expected then .good received expected else .mismatch received expected

theorem compareCrcs_eq_good {a b r e : Word} (h : compareCrcs a b = .good r e) : a = r ∧ b = e ∧ r = e := by
  unfold compareCrcs at h
  split at h
  · cases h; exact ⟨rfl, rfl, ‹_›⟩
  · cases h

theorem compareCrcs_eq_mismatch {a b r e : Word} (h : compareCrcs a b = .mismatch r e) : a = r ∧ b = e ∧ r ≠ e := by
  unfold compareCrcs at h
  split at h
  · cases h
  · cases h; exact ⟨rfl, rfl, ‹_›⟩

/-- A sequence that is long enough and has a good preamble reaches the comparison (41_frame_validator.md R95). -/
theorem validate_compared {f : List Byte} (p : Option Word) (hlen : 8 ≤ f.length) (hpre : f.take 8 = preamble) :
    validate f p = compareCrcs (be32 (f.drop (f.length - 4))) (p.getD (compute (f.take (f.length - 4)))) :=
  (if_neg (Nat.not_lt.mpr hlen)).trans (if_neg (not_not.mpr hpre))

/-- Only a sequence that reaches the comparison has a judgement with checksums (41_frame_validator.md R95). -/
theorem compared_of_checksums {f : List Byte} {p : Option Word} {c : Word × Word}
    (h : (validate f p).checksums = some c) : 8 ≤ f.length ∧ f.take 8 = preamble := by
  by_cases hlen : 8 ≤ f.length
  · by_cases hpre : f.take 8 = preamble
    · exact ⟨hlen, hpre⟩
    · rw [validate_badHandshake p hlen hpre] at h
      cases h
  · rw [validate_short p (Nat.lt_of_not_le hlen)] at h
    cases h

/-- Settles O50: by the branches of `validate`; a judgement with checksums says that the comparison was reached, and a
supplied value is then compared with the same received one. -/
theorem suppliedCrcReplacesComputedCrc : Obligations.SuppliedCrcReplacesComputedCrc := by
  refine ⟨fun f _ => rfl, fun f p => validate_short p, fun f p => validate_badHandshake p,
    fun f v => validate_compared (some v), fun f v r e hgood hne => ?_, fun f r e hmismatch => ?_⟩
  · obtain ⟨hlen, hpre⟩ := compared_of_checksums (congrArg Judgement.checksums hgood)
    rw [validate_compared _ hlen hpre] at hgood ⊢
    obtain ⟨rfl, rfl, heq⟩ := compareCrcs_eq_good hgood
    exact if_neg fun hv => hne (hv.symm.trans heq)
  · obtain ⟨hlen, hpre⟩ := compared_of_checksums (congrArg Judgement.checksums hmismatch)
    rw [validate_compared _ hlen hpre] at hmismatch ⊢
    obtain ⟨rfl, -, -⟩ := compareCrcs_eq_mismatch hmismatch
    exact if_pos rfl

end Sys2Proof.Machine
end

section
/-! PROOFS. Refusals of 60_exceptions.md: a command word has two outcomes, and its status tells which one it was. -/

namespace Sys2Proof.Machine

/-- The status of a refusal is one of the codes 1 to 4 (60_exceptions.md R122). -/
theorem ProtoError.code_bounds (e : ProtoError) : 1 ≤ e.code.toNat ∧ e.code.toNat ≤ 4 := by
  cases e <;> decide

/-- A step on a command word answers it or refuses it, an illegal word being refused like a command
(60_exceptions.md R120, R124). -/
theorem step_cmd_next {w : CmdWord} {s t : State} {rest : List HostAct} (hhost : s.host = .cmd w :: rest)
    (hstep : step s = .next t) :
    (∃ b v, t = answered { s with host := rest } b v) ∨
    (∃ e : ProtoError, t = refusedWith { s with host := rest } e.code) := by
  rw [step_cons s _ rest hhost] at hstep
  obtain ⟨i, b, v, -, -, rfl⟩ | ⟨i, e, -, -, rfl⟩ | ⟨r, -, rfl⟩ := (issue_next w _ t).mp hstep
  · exact .inl ⟨b, v, rfl⟩
  · exact .inr ⟨e, rfl⟩
  · exact .inr ⟨.ill, rfl⟩

/-- Two responses appended to the same responses, if equal, have the same status (30_encoding.md R46). -/
theorem status_eq_of_append_eq {rsps : List RspWord} {st st' : BitVec 4} {val val' : Word}
    (h : rsps ++ [st ++ val] = rsps ++ [st' ++ val']) : st = st' := by
  have hword : (st ++ val : RspWord) = st' ++ val' := List.singleton_inj.mp (List.append_cancel_left h)
  calc
    st = rspSt (st ++ val) := BitVec.extractLsb'_append_eq_left.symm
    _ = rspSt (st' ++ val') := congrArg rspSt hword
    _ = st' := BitVec.extractLsb'_append_eq_left

/-- Settles O18: an answer other than `OK` rules the accepted outcome out, and the refused one writes `ERR` only. -/
theorem refusalChangesOnlyErr : Obligations.RefusalChangesOnlyErr := by
  rintro w s t rest hhost hstep ⟨st, val, hst, hrsps⟩
  obtain ⟨b, v, rfl⟩ | ⟨e, rfl⟩ := step_cmd_next hhost hstep
  · have hok : 0#4 = st := status_eq_of_append_eq hrsps
    exact absurd hok.symm hst
  · obtain ⟨hpos, hle⟩ := e.code_bounds
    exact ⟨e.code, hpos, hle, rfl⟩

end Sys2Proof.Machine
end

section
/-! PROOFS. Encoding, 30_encoding.md section 4: `encode` and `decode` undo each other, and the words R49 calls
illegal. -/

namespace Sys2Proof

/-! ## The round trip -/

theorem decodeByte_setWidth (b : Byte) (f : Byte → Instr) : decodeByte (b.setWidth 32) f = .ok (f b) :=
  (decodeByte_ok _ f _).mpr ⟨top_of_setWidth b, congrArg f (byte_of_setWidth b)⟩

/-- Settles O2: `decode` sees the opcode and the argument of the command, and the argument passes its form's check. -/
theorem decodeEncodeIsIdentity : Obligations.DecodeEncodeIsIdentity := by
  intro i
  rw [decode, encode_op, encode_arg]
  cases i with
  | extb b | rdtbl b | fbyte b => exact decodeByte_setWidth b _
  | ldacc v | fendp v => rfl
  | tinit | seed | final | rdacc | fstart | fendc | rdst | rdrx | rdex | rdlen => rfl

/-- A decoded command has the argument of its word (30_encoding.md R48, R52). -/
theorem decode_ok_argument {w : CmdWord} {i : Instr} (h : decode w = .ok i) : w.extractLsb' 0 32 = i.argument := by
  rw [decode, decode_ok_opcode h] at h
  cases i with
  | extb b | rdtbl b | fbyte b =>
    obtain ⟨htop, hbyte⟩ := (decodeByte_ok _ _ _).mp h
    cases hbyte
    exact (setWidth_of_byte _ htop).symm
  | ldacc v | fendp v =>
    cases h
    rfl
  | tinit | seed | final | rdacc | fstart | fendc | rdst | rdrx | rdex | rdlen =>
    exact ((decodeNone_ok _ _ _).mp h).1

/-- Settles O3: a word is its two fields, and they are those of the command it decodes to. -/
theorem encodeDecodeIsIdentityOnLegalWords : Obligations.EncodeDecodeIsIdentityOnLegalWords := by
  intro w i h
  rw [encode, ← decode_ok_opcode h, ← decode_ok_argument h]
  exact word_eta w

/-! ## Illegal words -/

/-- Bad opcodes, and the opcodes of the forms N and B, by the opcode map (30_encoding.md R47). -/
theorem formOf_cases (op : Nat) :
    (formOf op = none ↔ op = 0x00 ∨ 0x10 ≤ op) ∧
    (formOf op = some .none ↔ op ∈ [0x01, 0x02, 0x05, 0x06, 0x08, 0x0A, 0x0C, 0x0D, 0x0E, 0x0F]) ∧
    (formOf op = some .byte ↔ op ∈ [0x04, 0x07, 0x09]) := by
  by_cases hop : op < 16
  · interval_cases op <;> decide
  · obtain ⟨k, rfl⟩ : ∃ k, op = k + 16 := ⟨op - 16, by omega⟩
    simp [formOf]

/-- Two fields fail a check by the opcode, or by the operand of a form that restricts it (30_encoding.md R49). -/
theorem exists_fieldCheck_iff (op : BitVec 8) (arg : Word) : (∃ e, fieldCheck op arg = some e) ↔
    formOf op.toNat = none ∨ (formOf op.toNat = some .none ∧ arg ≠ 0#32) ∨
      (formOf op.toNat = some .byte ∧ arg.extractLsb' 8 24 ≠ 0#24) := by
  unfold fieldCheck
  cases formOf op.toNat with
  | none => simp
  | some f => cases f <;> simp [operandCheck]

/-- Settles O5: a word is illegal when its fields fail a check, and which do the opcode map says. -/
theorem illegalWordsAreRefused : Obligations.IllegalWordsAreRefused := by
  refine ⟨fun w => ?_, fun w e s rest => Machine.step_illegal⟩
  obtain ⟨hopcode, hnone, hbyte⟩ := formOf_cases (w.extractLsb' 32 8).toNat
  simp only [decode, decodeFields_error, exists_fieldCheck_iff, hopcode, hnone, hbyte, or_assoc]

/-- Settles O1: the decoder evaluated on the fourteen words. -/
theorem specWordsDecode : Obligations.SpecWordsDecode :=
  ⟨rfl, rfl, rfl, rfl, rfl, rfl, rfl, rfl, rfl, rfl, rfl, rfl, rfl, rfl⟩

end Sys2Proof
end

section
/-! PROOFS. What an accepted command can write, as the read/write matrix of 10_state.md section 8 groups the commands,
and the frame statements that follow from it. -/

namespace Sys2Proof.Machine

/-- The six effects an accepted command has on the block `b`, and the commands that have each. -/
inductive Writes (b : Block) : Instr → Block → Prop where
  | table : Writes b .tinit b.withTable
  | acc {i : Instr} (x : Word) (hi : i.mnemonic ∈ ["SEED", "LDACC", "EXTB"]) : Writes b i (b.withAcc x)
  | openFrame : Writes b .fstart b.openFrame
  | takeByte {x : Byte} {a : Word} (htv : b.tv = true) (hcount : b.fcnt ≠ 0xFFFFFFFF#32) (hfed : Fed b a) :
      Writes b (.fbyte x) (b.takeByte x a)
  | closeFrame {i : Instr} (x : Word) (hi : i.mnemonic ∈ ["FENDC", "FENDP"]) : Writes b i (b.closeFrame x)
  | nothing {i : Instr} (hi : i.mnemonic ∈ ["RDTBL", "RDACC", "FINAL", "RDST", "RDRX", "RDEX", "RDLEN"]) :
      Writes b i b

/-- What an accepted command leaves is one of the six effects, whatever it answers. -/
theorem Accepts.writes {i : Instr} {b b' : Block} {v : Word} (h : Accepts i b b' v) : Writes b i b' := by
  cases i with
  | tinit =>
    obtain ⟨rfl, -⟩ := h
    exact .table
  | seed | ldacc x =>
    obtain ⟨rfl, -⟩ := h
    exact .acc _ (by simp [Instr.mnemonic])
  | extb x =>
    obtain ⟨-, -, e, -, rfl⟩ := h
    exact .acc _ (by simp [Instr.mnemonic])
  | fstart =>
    obtain ⟨rfl, -⟩ := h
    exact .openFrame
  | fbyte x =>
    obtain ⟨htv, -, hcount, -, a, hfed, rfl⟩ := h
    exact .takeByte htv (fun hmax => hcount (congrArg BitVec.toNat hmax)) hfed
  | fendc | fendp x =>
    obtain ⟨-, rfl, -⟩ := h
    exact .closeFrame _ (by simp [Instr.mnemonic])
  | rdtbl k =>
    obtain ⟨-, rfl, -⟩ := h
    exact .nothing (by simp [Instr.mnemonic])
  | final | rdacc | rdst | rdrx | rdex | rdlen =>
    obtain ⟨rfl, -⟩ := h
    exact .nothing (by simp [Instr.mnemonic])

/-- No accepted command writes `ERR` (60_exceptions.md R127). -/
theorem Writes.err {b b' : Block} {i : Instr} (h : Writes b i b') : b'.err = b.err := by
  cases h <;> rfl

/-- No accepted command clears `TV` (10_state.md R24 item 2). -/
theorem Writes.tv {b b' : Block} {i : Instr} (h : Writes b i b') (htv : b.tv = true) : b'.tv = true := by
  cases h with
  | table => rfl
  | acc | openFrame | takeByte | closeFrame | nothing => exact htv

/-- Only the five commands of 60_exceptions.md R123 can be refused. -/
theorem Refuses.mnemonic_mem {i : Instr} {b : Block} {e : ProtoError} (h : Refuses i b e) :
    i.mnemonic ∈ ["EXTB", "RDTBL", "FBYTE", "FENDC", "FENDP"] := by
  cases i with
  | extb | rdtbl | fbyte | fendc | fendp => simp [Instr.mnemonic]
  | tinit | seed | ldacc | final | rdacc | fstart | rdst | rdrx | rdex | rdlen => exact h.elim

/-- Settles O22: each of the six effects leaves the columns of the matrix that its commands have no mark in, and a
refusal leaves all but `ERR`. -/
theorem commandsWriteOnlyWhatTheMatrixSays : Obligations.CommandsWriteOnlyWhatTheMatrixSays := by
  intro i s t hexec
  obtain ⟨b, v, hacc, rfl⟩ | ⟨e, href, rfl⟩ := (exec_next i s t).mp hexec
  · refine ⟨rfl, ?_⟩
    simp only [State.reply_block]
    cases hacc.writes with
    | table => simp [Instr.mnemonic]
    | acc x hi => simp [hi]
    | openFrame => simp [Instr.mnemonic]
    | takeByte => simp [Instr.mnemonic]
    | closeFrame x hi => simp [hi, List.mem_cons_of_mem _ hi]
    | nothing => simp
  · simp [href.mnemonic_mem]

/-! ## Reading commands and `VERDICT` -/

/-- Settles O41: the three commands have no refusal, and their effect leaves the block. -/
theorem resultRegistersAreRead : Obligations.ResultRegistersAreRead :=
  ⟨rfl, rfl, rfl, fun _ => ⟨exec_answered ⟨rfl, rfl⟩, exec_answered ⟨rfl, rfl⟩, exec_answered ⟨rfl, rfl⟩⟩⟩

/-- The commands that write `ACC` and the frame ends read no register for the host. -/
theorem not_reading_of_writes {m : String} (h : m ∈ ["SEED", "LDACC", "EXTB"] ∨ m ∈ ["FENDC", "FENDP"]) :
    m ∉ ["RDTBL", "RDACC", "FINAL", "RDST", "RDRX", "RDEX", "RDLEN"] := by
  simp only [List.mem_cons, List.not_mem_nil, or_false] at h
  obtain (rfl | rfl | rfl) | rfl | rfl := h <;> decide

/-- Settles O23: the seven reading commands have no effect on the block, and `RDTBL` alone of them can be refused. -/
theorem readingCommandsHaveNoSideEffect : Obligations.ReadingCommandsHaveNoSideEffect := by
  intro i s t hi hexec
  obtain ⟨b, v, hacc, rfl⟩ | ⟨e, href, rfl⟩ := (exec_next i s t).mp hexec
  · left
    cases hacc.writes with
    | nothing => rfl
    | table | openFrame | takeByte => simp [Instr.mnemonic] at hi
    | acc x hi' => exact absurd hi (not_reading_of_writes (.inl hi'))
    | closeFrame x hi' => exact absurd hi (not_reading_of_writes (.inr hi'))
  · right
    cases i with
    | rdtbl k =>
      obtain ⟨htv, rfl⟩ := href
      exact ⟨htv, ⟨k, rfl⟩, rfl⟩
    | extb | fbyte | fendc | fendp => simp [Instr.mnemonic] at hi
    | tinit | seed | ldacc | final | rdacc | fstart | rdst | rdrx | rdex | rdlen => exact href.elim

theorem frameVerdict_ne_none (b : Block) (expected : Word) : frameVerdict b expected ≠ .none := by
  unfold frameVerdict
  split_ifs <;> simp

theorem frameEnd_of_mnemonic {i : Instr} (h : i.mnemonic ∈ ["FENDC", "FENDP"]) : i = .fendc ∨ ∃ v, i = .fendp v := by
  cases i with
  | fendc => exact .inl rfl
  | fendp v => exact .inr ⟨v, rfl⟩
  | _ => simp [Instr.mnemonic] at h

/-- Settles O27: of the six effects closing a frame alone writes `VERDICT`, and a frame's verdict is none of `V_NONE`. -/
theorem verdictIsWrittenByFrameEndOnly : Obligations.VerdictIsWrittenByFrameEndOnly := by
  intro i s t hexec
  obtain ⟨b, v, hacc, rfl⟩ | ⟨e, href, rfl⟩ := (exec_next i s t).mp hexec
  · refine ⟨?_, ?_⟩
    · cases hacc.writes with
      | closeFrame x hi => exact .inr ⟨frameEnd_of_mnemonic hi, v, rfl⟩
      | table | acc | openFrame | takeByte | nothing => exact .inl rfl
    · rintro (rfl | ⟨x, rfl⟩) -
      · obtain ⟨-, rfl, -⟩ := hacc
        exact frameVerdict_ne_none _ _
      · obtain ⟨-, rfl, -⟩ := hacc
        exact frameVerdict_ne_none _ _
  · refine ⟨.inl rfl, ?_⟩
    rintro (rfl | ⟨x, rfl⟩) hopen <;> exact (nomatch hopen.symm.trans href.1)

/-! ## Refusals and `ERR` -/

theorem ProtoError.code_ne_ok (e : ProtoError) : e.code ≠ 0#4 := by
  cases e <;> decide


/-- Settles O19: an accepted command has no effect on `ERR`, and the status of a refused one is not `OK`. -/
theorem acceptedCommandKeepsErr : Obligations.AcceptedCommandKeepsErr := by
  intro i s t val hexec hrsps
  obtain ⟨b, v, hacc, rfl⟩ | ⟨e, -, rfl⟩ := (exec_next i s t).mp hexec
  · exact hacc.writes.err
  · exact absurd (status_eq_of_append_eq hrsps) e.code_ne_ok

/-! ## The table of outcomes (60_exceptions.md section 3) -/

theorem Accepts.outcomeStatus_eq {i : Instr} {b b' : Block} {v : Word} (h : Accepts i b b' v) :
    outcomeStatus i b = stOk := by
  cases i with
  | extb x | rdtbl k =>
    obtain ⟨htv, -⟩ := h
    simp [outcomeStatus, htv, stOk]
  | fbyte x =>
    obtain ⟨htv, hopen, hcount, -⟩ := h
    have hmax : b.fcnt ≠ 0xFFFFFFFF#32 := fun hmax => hcount (congrArg BitVec.toNat hmax)
    simp [outcomeStatus, htv, hopen, hmax, stOk]
  | fendc | fendp x =>
    obtain ⟨hopen, -⟩ := h
    simp [outcomeStatus, hopen, stOk]
  | tinit | seed | ldacc | final | rdacc | fstart | rdst | rdrx | rdex | rdlen => rfl

theorem Refuses.outcomeStatus_eq {i : Instr} {b : Block} {e : ProtoError} (h : Refuses i b e) :
    outcomeStatus i b = e.code := by
  cases i with
  | extb x | rdtbl k =>
    obtain ⟨htv, rfl⟩ := h
    simp [outcomeStatus, htv, ProtoError.code]
  | fbyte x =>
    obtain ⟨htv, rfl⟩ | ⟨htv, hidle, rfl⟩ | ⟨htv, hopen, hfull, rfl⟩ := h
    · simp [outcomeStatus, htv, ProtoError.code]
    · simp [outcomeStatus, htv, hidle, ProtoError.code]
    · have hmax : b.fcnt = 0xFFFFFFFF#32 := BitVec.eq_of_toNat_eq hfull
      simp [outcomeStatus, htv, hopen, hmax, ProtoError.code]
  | fendc | fendp x =>
    obtain ⟨hidle, rfl⟩ := h
    simp [outcomeStatus, hidle, ProtoError.code]
  | tinit | seed | ldacc | final | rdacc | fstart | rdst | rdrx | rdex | rdlen => exact h.elim

/-- With the table built where `TV` says so, every command is accepted or refused (00_scope.md R7). -/
theorem accepts_or_refuses (i : Instr) {b : Block} (hbuilt : TableBuilt b) :
    (∃ b' v, Accepts i b b' v) ∨ ∃ e, Refuses i b e := by
  cases i with
  | extb x =>
    cases htv : b.tv with
    | false => exact .inr ⟨.noTbl, htv, rfl⟩
    | true => exact .inl ⟨_, _, htv, rfl, _, hbuilt htv _, rfl⟩
  | rdtbl k =>
    cases htv : b.tv with
    | false => exact .inr ⟨.noTbl, htv, rfl⟩
    | true => exact .inl ⟨_, _, htv, rfl, hbuilt htv k⟩
  | fbyte x =>
    cases htv : b.tv with
    | false => exact .inr ⟨.noTbl, .inl ⟨htv, rfl⟩⟩
    | true =>
      cases hphase : b.phase with
      | idle => exact .inr ⟨.seq, .inr (.inl ⟨htv, hphase, rfl⟩)⟩
      | opened =>
        by_cases hfull : b.fcnt.toNat = 4294967295
        · exact .inr ⟨.len, .inr (.inr ⟨htv, hphase, hfull, rfl⟩)⟩
        · exact .inl ⟨_, _, htv, hphase, hfull, rfl, _, fed_of_built hbuilt htv, rfl⟩
  | fendc | fendp x =>
    cases hphase : b.phase with
    | idle => exact .inr ⟨.seq, hphase, rfl⟩
    | opened => exact .inl ⟨_, _, hphase, rfl, rfl⟩
  | tinit | seed | ldacc | final | rdacc | fstart | rdst | rdrx | rdex | rdlen => exact .inl ⟨_, _, rfl, rfl⟩

/-- Settles O21: every command is accepted or refused, and the table of outcomes says which, by the same conditions. -/
theorem outcomeTable : Obligations.OutcomeTable := by
  intro i s hbuilt
  obtain ⟨b, v, hacc⟩ | ⟨e, href⟩ := accepts_or_refuses i hbuilt
  · exact ⟨_, v, exec_answered hacc, by rw [hacc.outcomeStatus_eq]; rfl⟩
  · exact ⟨_, 0#32, exec_refused href, by rw [href.outcomeStatus_eq]; rfl⟩

/-! ## Two runs that differ in what a command does not read (10_state.md R11, 70_reset_and_hazards.md R142) -/

/-- A frame command is accepted whatever `ACC` holds, with one effect and one answer (10_state.md R11). -/
theorem Accepts.withAcc {i : Instr} {b b' : Block} {v : Word} (h : Accepts i b b' v)
    (hi : i.mnemonic ∈ ["FSTART", "FBYTE", "FENDC", "FENDP"]) (a : Word) :
    b'.acc = b.acc ∧ Accepts i (b.withAcc a) (b'.withAcc a) v := by
  cases i with
  | fstart =>
    obtain ⟨rfl, rfl⟩ := h
    exact ⟨rfl, rfl, rfl⟩
  | fbyte x =>
    obtain ⟨htv, hopen, hcount, rfl, c, hfed, rfl⟩ := h
    exact ⟨rfl, htv, hopen, hcount, rfl, c, hfed, rfl⟩
  | fendc | fendp x =>
    obtain ⟨hopen, rfl, rfl⟩ := h
    exact ⟨rfl, hopen, rfl, rfl⟩
  | _ => simp [Instr.mnemonic] at hi

/-- Settles O24: acceptance with its effect, and refusal, are the same for every `ACC`. -/
theorem validatorNeverReadsAcc : Obligations.ValidatorNeverReadsAcc := by
  intro i s t a hi hexec
  obtain ⟨b, v, hacc, rfl⟩ | ⟨e, href, rfl⟩ := (exec_next i s t).mp hexec
  · obtain ⟨hkept, hacc'⟩ := hacc.withAcc hi a
    exact ⟨hkept, exec_answered hacc'⟩
  · have href' : Refuses i (s.block.withAcc a) e := href
    exact ⟨rfl, exec_refused href'⟩

/-- The block with another value in `VACC`. -/
def Block.withVacc (b : Block) (a : Word) : Block := { b with vacc := a }

/-- An engine command is accepted whatever `VACC` holds, with one effect and one answer (10_state.md R11). -/
theorem Accepts.withVacc {i : Instr} {b b' : Block} {v : Word} (h : Accepts i b b' v)
    (hi : i.mnemonic ∈ ["TINIT", "SEED", "LDACC", "EXTB", "FINAL", "RDACC", "RDTBL"]) (a : Word) :
    b'.vacc = b.vacc ∧ Accepts i (b.withVacc a) (b'.withVacc a) v := by
  cases i with
  | tinit | seed | ldacc x | final | rdacc =>
    obtain ⟨rfl, rfl⟩ := h
    exact ⟨rfl, rfl, rfl⟩
  | extb x =>
    obtain ⟨htv, rfl, e, hentry, rfl⟩ := h
    exact ⟨rfl, htv, rfl, e, hentry, rfl⟩
  | rdtbl k =>
    obtain ⟨htv, rfl, hentry⟩ := h
    exact ⟨rfl, htv, rfl, hentry⟩
  | _ => simp [Instr.mnemonic] at hi

/-- Settles O25: acceptance with its effect, and refusal, are the same for every `VACC`. -/
theorem engineNeverReadsVacc : Obligations.EngineNeverReadsVacc := by
  intro i s t a hi hexec
  obtain ⟨b, v, hacc, rfl⟩ | ⟨e, href, rfl⟩ := (exec_next i s t).mp hexec
  · obtain ⟨hkept, hacc'⟩ := hacc.withVacc hi a
    exact ⟨hkept, exec_answered hacc'⟩
  · have href' : Refuses i (s.block.withVacc a) e := href
    exact ⟨rfl, exec_refused href'⟩

/-- The block with other contents of the table space. -/
def Block.withMemory (b : Block) (m : Memory) : Block := { b with table := m }

/-- While `TV` is 0 a command is accepted whatever the table space holds, with one effect apart from it, and what it
builds there reads the same (70_reset_and_hazards.md R142). -/
theorem Accepts.withMemory {i : Instr} {b b' : Block} {v : Word} (h : Accepts i b b' v) (htv : b.tv = false)
    (m : Memory) : ∃ m', Accepts i (b.withMemory m) (b'.withMemory m') v ∧
      (b'.tv = true → ∀ k, tblRead m' k = tblRead b'.table k) := by
  cases i with
  | tinit =>
    obtain ⟨rfl, rfl⟩ := h
    exact ⟨buildTable m, ⟨rfl, rfl⟩, fun _ k => (tblRead_buildTable m k).trans (tblRead_buildTable _ k).symm⟩
  | extb | rdtbl | fbyte =>
    obtain ⟨htv', -⟩ := h
    exact absurd (htv'.symm.trans htv) (by decide)
  | fendc | fendp x =>
    obtain ⟨hopen, rfl, rfl⟩ := h
    exact ⟨m, ⟨hopen, rfl, rfl⟩, fun htv' => absurd (htv'.symm.trans htv) (by decide)⟩
  | seed | ldacc x | final | rdacc | fstart | rdst | rdrx | rdex | rdlen =>
    obtain ⟨rfl, rfl⟩ := h
    exact ⟨m, ⟨rfl, rfl⟩, fun htv' => absurd (htv'.symm.trans htv) (by decide)⟩

/-- Settles O26: with `TV` 0 every command completes, and both runs take the one branch; only `TINIT` makes `TV` 1. -/
theorem unbuiltTableIsUnobservable : Obligations.UnbuiltTableIsUnobservable := by
  intro i s m htv
  have hbuilt : TableBuilt s.block := fun h => absurd (h.symm.trans htv) (by decide)
  obtain ⟨b, v, hacc⟩ | ⟨e, href⟩ := accepts_or_refuses i hbuilt
  · obtain ⟨m', hacc', hreads⟩ := hacc.withMemory htv m
    exact ⟨_, _, exec_answered hacc, exec_answered hacc', rfl, hreads⟩
  · have href' : Refuses i (s.block.withMemory m) e := href
    exact ⟨_, _, exec_refused href, exec_refused href', rfl, fun h => absurd (h.symm.trans htv) (by decide)⟩

end Sys2Proof.Machine
end

section
/-! PROOFS. The step: what one act of the host does to the machine, and the invariants of 10_state.md section 10 over
steps and runs. -/

namespace Sys2Proof.Machine

/-! ## The host's acts (00_scope.md R7, 70_reset_and_hazards.md R141) -/

/-- A word that decodes is run as its command. -/
theorem step_decoded {w : CmdWord} {i : Instr} {s : State} {rest : List HostAct} (hw : decode w = .ok i)
    (hhost : s.host = .cmd w :: rest) : step s = exec i { s with host := rest } := by
  rw [step_cons s _ rest hhost, perform, issue, hw]

/-- Settles O7: the step takes the word from the host and decodes it. -/
theorem stepRunsTheDecodedCommand : Obligations.StepRunsTheDecodedCommand :=
  fun _ _ _ _ => step_decoded

theorem withFetchWord_encode (i : Instr) (s : State) :
    s.withFetchWord 40 (encode i).toNat = s.withCommand (encode i) := by
  rw [State.withFetchWord, Nat.mod_eq_of_lt (encode i).isLt, BitVec.ofNat_toNat, BitVec.setWidth_eq]

/-- Settles O8: the placed word is the host's next act, and it decodes to its command. -/
theorem fetchWordIsRunNext : Obligations.FetchWordIsRunNext := by
  intro i s
  rw [withFetchWord_encode]
  exact step_decoded (decodeEncodeIsIdentity i) rfl

/-- A reset, in flight or not, leaves the reset block and answers nothing. -/
theorem step_reset {a : HostAct} {s : State} {rest : List HostAct} (ha : a.isReset = true) (hhost : s.host = a :: rest) :
    step s = .next { block := Block.reset, host := rest, rsps := s.rsps } := by
  rw [step_cons s a rest hhost]
  cases a with
  | cmd w => cases ha
  | rst | rstDuring w => rfl

/-- Settles O9: both kinds of reset act have the one effect. -/
theorem hostResetRestoresEveryElement : Obligations.HostResetRestoresEveryElement :=
  fun _ _ _ => step_reset

/-- Settles O10: a step without an act is the identity. -/
theorem nothingChangesBetweenCommands : Obligations.NothingChangesBetweenCommands :=
  step_nil

/-- Settles O11: read off the reset block, whose memory lists no index. -/
theorem resetValues : Obligations.ResetValues :=
  ⟨rfl, rfl, rfl, rfl, rfl, rfl, rfl, rfl, rfl, rfl, rfl, fun _ => rfl, rfl⟩

/-! ## One command word -/

/-- A step on a command word is that of an accepted command with its effect, or a refusal. -/
theorem step_cmd_effect {w : CmdWord} {s t : State} {rest : List HostAct} (hhost : s.host = .cmd w :: rest)
    (hstep : step s = .next t) :
    (∃ i b v, decode w = .ok i ∧ Accepts i s.block b v ∧ t = answered { s with host := rest } b v) ∨
    (∃ e : ProtoError, t = refusedWith { s with host := rest } e.code) := by
  rw [step_cons s _ rest hhost] at hstep
  obtain haccepted | ⟨i, e, -, -, rfl⟩ | ⟨r, -, rfl⟩ := (issue_next w _ t).mp hstep
  · exact .inl haccepted
  · exact .inr ⟨e, rfl⟩
  · exact .inr ⟨.ill, rfl⟩

theorem rspSt_append (st : BitVec 4) (val : Word) : rspSt (st ++ val) = st := BitVec.extractLsb'_append_eq_left

theorem rspVal_append (st : BitVec 4) (val : Word) : rspVal (st ++ val) = val := BitVec.extractLsb'_append_eq_right

/-- A command that neither reads nor judges answers value 0 (30_encoding.md R46). -/
theorem Accepts.value_eq_zero {i : Instr} {b b' : Block} {v : Word} (h : Accepts i b b' v)
    (hi : i.mnemonic ∈ ["TINIT", "SEED", "LDACC", "EXTB", "FSTART", "FBYTE"]) : v = 0#32 := by
  cases i with
  | tinit | seed | ldacc x | fstart => exact h.2
  | extb x =>
    obtain ⟨-, hv, -⟩ := h
    exact hv
  | fbyte x =>
    obtain ⟨-, -, -, hv, -⟩ := h
    exact hv
  | _ => simp [Instr.mnemonic] at hi

/-- Settles O6: accepted or refused, the step appends one response, and a refusal answers value 0. -/
theorem everyCommandAnswersOnce : Obligations.EveryCommandAnswersOnce := by
  intro w s t rest hhost hstep
  obtain ⟨i, b, v, hi, hacc, rfl⟩ | ⟨e, rfl⟩ := step_cmd_effect hhost hstep
  · refine ⟨rfl, 0#4, v, rfl, rspSt_append _ _, rspVal_append _ _, by decide, fun h => absurd rfl h, fun j hj hplain => ?_⟩
    obtain rfl : i = j := Except.ok.inj (hi.symm.trans hj)
    exact hacc.value_eq_zero hplain
  · exact ⟨rfl, e.code, 0#32, rfl, rspSt_append _ _, rspVal_append _ _, e.code_bounds.2, fun _ => rfl, fun _ _ _ => rfl⟩

/-! ## The invariants -/

theorem inv_reset (host : List HostAct) (rsps : List RspWord) : Inv ⟨Block.reset, host, rsps⟩ where
  memory := rfl
  table h := by cases h
  frameNeedsTable h := by cases h
  noVerdict _ := ⟨rfl, rfl⟩
  window _ := ⟨rfl, rfl⟩
  verdictOk h := by cases h
  verdictCrc h := by cases h

/-- Settles O12: the reset block meets them, whatever the host will do. -/
theorem resetMeetsInvariants : Obligations.ResetMeetsInvariants := fun acts => inv_reset acts []

/-- A byte enters a window that is zero above its bytes: so it stays with one byte more (10_state.md R24 item 6). -/
theorem pushByte_ushiftRight {win : Word} {n : Nat} (x : Byte) (h : win >>> (8 * n) = 0#32) :
    pushByte win x >>> (8 * (n + 1)) = 0#32 := by
  refine BitVec.eq_of_getLsbD_eq fun i _ => ?_
  have hbit := congrArg (fun v => BitVec.getLsbD v i) h
  simp only [BitVec.getLsbD_ushiftRight, BitVec.getLsbD_zero] at hbit
  simp [show ¬ 8 * (n + 1) + i < 8 by omega, show 8 * (n + 1) + i - 8 = 8 * n + i by omega, hbit]

/-- Each effect of an accepted command keeps the invariants. -/
theorem Inv.writes {s : State} (h : Inv s) {i : Instr} {b : Block} (hw : Writes s.block i b) (host : List HostAct)
    (rsps : List RspWord) : Inv ⟨b, host, rsps⟩ := by
  cases hw with
  | table =>
    exact { h with
      memory := buildTable_keeps_wf _ h.memory
      table := fun _ => tblRead_buildTable _
      frameNeedsTable := fun _ _ => rfl }
  | acc | nothing => exact { h with }
  | openFrame =>
    exact { h with
      frameNeedsTable := fun _ hpos => absurd hpos (by simp)
      window := fun _ => ⟨rfl, rfl⟩ }
  | takeByte htv hcount hfed =>
    refine { h with frameNeedsTable := fun _ _ => htv, window := fun hfew => ?_ }
    have hnext := toNat_add_one_of_ne_max hcount
    simp only [Block.takeByte_fcnt, Block.takeByte_win, Block.takeByte_vacc, hnext] at hfew ⊢
    obtain ⟨hwin, hvacc⟩ := h.window (by omega)
    obtain ⟨hfour, -⟩ | ⟨-, rfl⟩ := hfed
    · omega
    · exact ⟨pushByte_ushiftRight _ hwin, hvacc⟩
  | closeFrame x =>
    by_cases hlong : 8 ≤ s.block.fcnt.toNat
    · cases hgood : s.block.hsok with
      | false =>
        rw [(closeFrame_hs s.block x hlong hgood).2]
        exact { h with frameNeedsTable := nofun, noVerdict := nofun, verdictOk := nofun, verdictCrc := nofun }
      | true =>
        rw [(closeFrame_compared s.block x hlong hgood).2]
        refine { h with frameNeedsTable := nofun, noVerdict := ?_, verdictOk := ?_, verdictCrc := ?_ } <;>
          by_cases heq : s.block.win = x <;> simp [heq]
    · rw [(closeFrame_short s.block x (by omega)).2]
      exact { h with frameNeedsTable := nofun, noVerdict := nofun, verdictOk := nofun, verdictCrc := nofun }

/-- `ERR` is in no invariant, so a refusal keeps them. -/
theorem Inv.refusedWith {s : State} (h : Inv s) (e : BitVec 4) : Inv (refusedWith s e) := { h with }

/-- Settles O13: an accepted command keeps them by its effect, a refusal writes `ERR` only, and a reset starts over. -/
theorem stepKeepsInvariants : Obligations.StepKeepsInvariants := by
  intro s t hinv hstep
  cases hhost : s.host with
  | nil =>
    rw [step_nil s hhost] at hstep
    cases hstep
    exact hinv
  | cons a rest =>
    cases a with
    | cmd w =>
      obtain ⟨i, b, v, -, hacc, rfl⟩ | ⟨e, rfl⟩ := step_cmd_effect hhost hstep
      · exact hinv.writes hacc.writes _ _
      · have htaken : Inv { s with host := rest } := { hinv with }
        exact htaken.refusedWith e.code
    | rst | rstDuring w =>
      rw [step_reset rfl hhost] at hstep
      cases hstep
      exact inv_reset _ _

/-- What every step keeps, every run keeps. -/
theorem runsTo_keeps {P : State → Prop} (hkeep : ∀ s t, P s → step s = .next t → P t) {n : Nat} {s t : State}
    (hs : P s) (hrun : RunsTo n s t) : P t := by
  induction n generalizing s with
  | zero => exact (runsTo_zero s t).mp hrun ▸ hs
  | succ n ih =>
    obtain ⟨u, hstep, hrest⟩ := (runsTo_succ n s t).mp hrun
    exact ih (hkeep s u hs hstep) hrest

/-- Settles O14: they hold at reset and every step keeps them. -/
theorem reachableStatesMeetInvariants : Obligations.ReachableStatesMeetInvariants := by
  rintro t ⟨acts, n, hrun⟩
  exact runsTo_keeps stepKeepsInvariants (resetMeetsInvariants acts) hrun

/-- Settles O15: the table is built where `TV` says so, and then every command word has an outcome. -/
theorem stepNeverStops : Obligations.StepNeverStops := by
  intro s hinv
  cases hhost : s.host with
  | nil => exact ⟨s, step_nil s hhost⟩
  | cons a rest =>
    cases a with
    | cmd w =>
      cases hw : decode w with
      | error e => exact ⟨_, step_illegal hw hhost⟩
      | ok i =>
        obtain ⟨t, -, hexec, -⟩ := outcomeTable i { s with host := rest } hinv.table
        exact ⟨t, (step_decoded hw hhost).trans hexec⟩
    | rst | rstDuring w => exact ⟨_, step_reset rfl hhost⟩

theorem exists_cmd_of_not_isReset {a : HostAct} (h : a.isReset = false) : ∃ w, a = .cmd w := by
  cases a with
  | cmd w => exact ⟨w, rfl⟩
  | rst | rstDuring w => cases h

/-- Settles O16: an accepted command clears neither flag by its effect, and a refusal sets `ERR`. -/
theorem tableValidAndErrorAreSticky : Obligations.TableValidAndErrorAreSticky := by
  intro a s t rest hhost ha hstep
  obtain ⟨w, rfl⟩ := exists_cmd_of_not_isReset ha
  obtain ⟨i, b, v, -, hacc, rfl⟩ | ⟨e, rfl⟩ := step_cmd_effect hhost hstep
  · exact ⟨hacc.writes.tv, hacc.writes.err.trans⟩
  · exact ⟨id, fun _ => rfl⟩

/-- Settles O17: before and after, `TV` is 1 and so every index reads as `tbl` of itself. -/
theorem builtTableNeverChanges : Obligations.BuiltTableNeverChanges := by
  intro a s t rest hinv htv hhost ha hstep k
  obtain ⟨htv', -⟩ := tableValidAndErrorAreSticky a s t rest hhost ha hstep
  have hinv' : Inv t := stepKeepsInvariants s t hinv hstep
  exact (hinv'.table (htv' htv) k).trans (hinv.table htv k).symm

/-! ## `ERR` over a run -/

/-- After a command word `ERR` is 0 exactly when it was 0 and the response is `OK` (60_exceptions.md R127). -/
theorem step_cmd_err {w : CmdWord} {s t : State} {rest : List HostAct} (hhost : s.host = .cmd w :: rest)
    (hstep : step s = .next t) : t.host = rest ∧ ∃ r, t.rsps = s.rsps ++ [r] ∧
      (NoProtocolError t ↔ NoProtocolError s ∧ rspSt r = 0#4) := by
  obtain ⟨i, b, v, -, hacc, rfl⟩ | ⟨e, rfl⟩ := step_cmd_effect hhost hstep
  · refine ⟨rfl, _, rfl, ?_⟩
    simp [NoProtocolError, answered, rspSt_append, hacc.writes.err]
  · refine ⟨rfl, _, rfl, ?_⟩
    simp [NoProtocolError, refusedWith, rspSt_append, e.code_ne_ok]

/-- Over acts without reset `ERR` ends as 0 exactly when it was 0 and every response is `OK`. -/
theorem run_err {acts rest : List HostAct} {s t : State} (hhost : s.host = acts ++ rest)
    (hacts : ∀ a ∈ acts, a.isReset = false) (hrun : RunsTo acts.length s t) :
    ∃ rs : List RspWord, t.rsps = s.rsps ++ rs ∧ rs.length = acts.length ∧
      (NoProtocolError t ↔ NoProtocolError s ∧ ∀ r ∈ rs, rspSt r = 0#4) := by
  induction acts generalizing s with
  | nil =>
    obtain rfl := (runsTo_zero s t).mp hrun
    exact ⟨[], by simp, rfl, by simp⟩
  | cons a acts ih =>
    obtain ⟨ha, hacts'⟩ := List.forall_mem_cons.mp hacts
    obtain ⟨w, rfl⟩ := exists_cmd_of_not_isReset ha
    obtain ⟨u, hstep, hrest⟩ := (runsTo_succ acts.length s t).mp hrun
    obtain ⟨hhost', r, hrsp, herr⟩ := step_cmd_err hhost hstep
    obtain ⟨rs, hrsps, hlen, herrs⟩ := ih hhost' hacts' hrest
    exact ⟨r :: rs, by rw [hrsps, hrsp, List.append_assoc, List.singleton_append], by simp [hlen],
      by rw [herrs, herr, List.forall_mem_cons, and_assoc]⟩

/-- Settles O20: by induction on the acts, each of which answers once. -/
theorem errTellsWhetherAnyCommandWasRefused : Obligations.ErrTellsWhetherAnyCommandWasRefused := by
  intro acts rest s t hs hhost hacts hrun
  obtain ⟨rs, hrsps, hlen, herr⟩ := run_err hhost hacts hrun
  exact ⟨rs, hrsps, hlen, by rw [herr, and_iff_right hs]⟩

end Sys2Proof.Machine
end

section
/-! PROOFS. The CRC of 40_crc_engine.md as a linear map: one bit step, then eight of them, and what that makes of the
table and of `crc_step`. -/

namespace Sys2Proof.Machine

/-! ## Bit steps -/

/-- A bit step, bit by bit: each bit comes from above, and the constant is added when the lowest bit was 1. -/
theorem bitStep_getLsbD (c : Word) (i : Nat) :
    (bitStep c).getLsbD i = (c.getLsbD (i + 1) ^^ (c.getLsbD 0 && Config.rpoly.getLsbD i)) := by
  unfold bitStep
  split <;> simp_all [Nat.add_comm]

theorem bitStep_xor (c d : Word) : bitStep (c ^^^ d) = bitStep c ^^^ bitStep d := by
  refine BitVec.eq_of_getLsbD_eq fun i _ => ?_
  simp only [bitStep_getLsbD, BitVec.getLsbD_xor, Bool.and_xor_distrib_right, Bool.xor_assoc, Bool.xor_left_comm]

theorem bitSteps_xor (n : Nat) (c d : Word) : bitSteps n (c ^^^ d) = bitSteps n c ^^^ bitSteps n d := by
  induction n generalizing c d with
  | zero => rfl
  | succ n ih => simp only [bitSteps, bitStep_xor, ih]

theorem bitSteps_succ (n : Nat) (c : Word) : bitSteps (n + 1) c = bitStep (bitSteps n c) := by
  induction n generalizing c with
  | zero => rfl
  | succ n ih => exact ih (bitStep c)

/-- Steps that shift out zeros only are a shift. -/
theorem bitSteps_of_low_zero {n : Nat} {c : Word} (h : ∀ i < n, c.getLsbD i = false) : bitSteps n c = c >>> n := by
  induction n generalizing c with
  | zero => rfl
  | succ n ih =>
    have hstep : bitStep c = c >>> 1 := if_neg (by simpa using h 0 (Nat.succ_pos n))
    rw [bitSteps, hstep, ih fun i hi => by simp [h (1 + i) (by omega)], ← BitVec.shiftRight_add, Nat.add_comm]

/-- The constant's top bit is 1, so a step that shifts out a 1 sets the top bit: zeros on top after `n` steps mean that
zeros were shifted out. -/
theorem low_zero_of_bitSteps_top_zero {n : Nat} {c : Word} (hn : n ≤ 32)
    (h : ∀ i < n, (bitSteps n c).getLsbD (31 - i) = false) : ∀ i < n, c.getLsbD i = false := by
  induction n with
  | zero => simp
  | succ n ih =>
    simp only [bitSteps_succ, bitStep_getLsbD] at h
    have hout : (bitSteps n c).getLsbD 0 = false := by simpa using h 0 (Nat.succ_pos n)
    have hlow : ∀ i < n, c.getLsbD i = false := ih (by omega) fun i hi => by
      have hbit := h (i + 1) (by omega)
      rwa [hout, Bool.false_and, Bool.xor_false, show 31 - (i + 1) + 1 = 31 - i by omega] at hbit
    intro i hi
    obtain hlt | rfl := Nat.lt_succ_iff_lt_or_eq.mp hi
    · exact hlow i hlt
    · simpa [bitSteps_of_low_zero hlow] using hout

theorem eq_zero_of_bitSteps_eq_zero {n : Nat} {c : Word} (hn : n ≤ 32) (h : bitSteps n c = 0#32) : c = 0#32 := by
  have hlow : ∀ i < n, c.getLsbD i = false := low_zero_of_bitSteps_top_zero hn fun i _ => by simp [h]
  rw [bitSteps_of_low_zero hlow] at h
  refine BitVec.eq_of_getLsbD_eq fun i _ => ?_
  by_cases hi : i < n
  · simp [hlow i hi]
  · simpa [show n + (i - n) = i by omega] using congrArg (fun v => BitVec.getLsbD v (i - n)) h

theorem bitSteps_injective {n : Nat} (hn : n ≤ 32) : Function.Injective (bitSteps n) := by
  intro c d h
  rw [← BitVec.xor_eq_zero_iff] at h ⊢
  exact eq_zero_of_bitSteps_eq_zero hn ((bitSteps_xor n c d).trans h)

/-! ## The table and `crc_step` -/

/-- `crc_step` splits the accumulator into what is shifted down and what meets the byte. -/
theorem xor_setWidth_eq (a : Word) (b : Byte) :
    a ^^^ b.setWidth 32 = (a >>> 8) <<< 8 ^^^ (tableIndex a b).setWidth 32 := by
  refine BitVec.eq_of_getLsbD_eq fun i hi => ?_
  by_cases hlow : i < 8
  · simp [tableIndex, lowByte, hlow, hi]
  · simp [tableIndex, lowByte, hlow, hi, show 8 + (i - 8) = i by omega, BitVec.getLsbD_of_ge b i (by omega)]

/-- Settles O44: bit steps are linear; on the upper 24 bits eight of them are a shift, on the byte they are `tbl`. -/
theorem tableStepIsEightBitSteps : Obligations.TableStepIsEightBitSteps := by
  intro a b
  have hshift : bitSteps 8 ((a >>> 8) <<< 8) = a >>> 8 := by
    rw [bitSteps_of_low_zero fun i hi => by simp [hi]]
    refine BitVec.eq_of_getLsbD_eq fun i _ => ?_
    by_cases hi : 8 + i < 32
    · simp [hi]
    · simp [hi, BitVec.getLsbD_of_ge a (8 + i) (by omega)]
  rw [xor_setWidth_eq, bitSteps_xor, hshift]
  rfl

theorem tbl_xor (i j : Byte) : tbl (i ^^^ j) = tbl i ^^^ tbl j := by
  rw [tbl, BitVec.setWidth_xor, bitSteps_xor]
  rfl

theorem setWidth_byte_injective : Function.Injective (fun b : Byte => b.setWidth 32) := fun b c h => by
  rw [← byte_of_setWidth b, ← byte_of_setWidth c]
  exact congrArg _ h

/-- The top byte of an entry is zero for index 0 only (40_crc_engine.md section 2). -/
theorem eq_zero_of_tbl_top_eq_zero {i : Byte} (h : (tbl i).extractLsb' 24 8 = 0#8) : i = 0#8 := by
  have htop : ∀ k < 8, (tbl i).getLsbD (31 - k) = false := fun k hk => by
    simpa [show 7 - k < 8 by omega, show 24 + (7 - k) = 31 - k by omega] using
      congrArg (fun v => BitVec.getLsbD v (7 - k)) h
  refine BitVec.eq_of_getLsbD_eq fun k hk => ?_
  simpa [show k < 32 by omega] using low_zero_of_bitSteps_top_zero (c := i.setWidth 32) (by decide) htop k hk

theorem crcStep_xor (a a' : Word) (b b' : Byte) : crcStep (a ^^^ a') (b ^^^ b') = crcStep a b ^^^ crcStep a' b' := by
  simp only [tableStepIsEightBitSteps _ _, ← bitSteps_xor, BitVec.setWidth_xor]
  congr 1
  ac_rfl

theorem crcStep_injective_acc (b : Byte) : Function.Injective fun a => crcStep a b := by
  intro a a' h
  simp only [tableStepIsEightBitSteps _ _] at h
  exact (BitVec.xor_left_inj _).mp (bitSteps_injective (by decide) h)

theorem crcStep_injective_byte (a : Word) : Function.Injective (crcStep a) := by
  intro b b' h
  simp only [tableStepIsEightBitSteps _ _] at h
  exact setWidth_byte_injective ((BitVec.xor_right_inj _).mp (bitSteps_injective (by decide) h))

/-- Settles O45: all by linearity, from the kernels of eight bit steps and of their top byte being zero. -/
theorem tableFacts : Obligations.TableFacts := by
  refine ⟨rfl, tbl_xor, fun i j htop => ?_, crcStep_xor, fun b => (crcStep_injective_acc b).bijective_of_finite,
    crcStep_injective_byte⟩
  rw [← BitVec.xor_eq_zero_iff] at htop ⊢
  rw [← BitVec.extractLsb'_xor, ← tbl_xor] at htop
  exact eq_zero_of_tbl_top_eq_zero htop

/-- Settles O42: evaluated. -/
theorem checkValues : Obligations.CheckValues := ⟨rfl, by decide +kernel⟩

theorem extend_injective (d : List Byte) : Function.Injective fun a => extend a d := by
  induction d with
  | nil => exact fun _ _ h => h
  | cons b d ih => exact fun _ _ h => crcStep_injective_acc b (ih h)

end Sys2Proof.Machine
end

section
/-! PROOFS. The reference frame of 41_frame_validator.md section 2 and `validate`: built frames, one flipped bit, and the
lengths at which a good frame is well formed. -/

namespace Sys2Proof.Machine

/-! ## Built frames -/

/-- A preamble, any bytes and a trailer are judged by the trailer against the checksum of the rest. -/
theorem validate_preamble_append (q trailer : List Byte) (htrailer : trailer.length = 4) :
    validate ((preamble ++ q) ++ trailer) none = compareCrcs (be32 trailer) (compute (preamble ++ q)) := by
  have hlen : ((preamble ++ q) ++ trailer).length - 4 = (preamble ++ q).length := by
    rw [List.length_append, htrailer, Nat.add_sub_cancel]
  have hlong : 8 ≤ ((preamble ++ q) ++ trailer).length := by simp [preamble_length]
  rw [validate_compared none hlong (by rw [List.append_assoc]; rfl), hlen, List.drop_left, List.take_left]
  rfl

/-- Settles O46: the trailer of a built frame is the checksum of the rest. -/
theorem builtFramesValidate : Obligations.BuiltFramesValidate := by
  intro p
  rw [mkframe, validate_preamble_append p _ rfl, be32_be32bytes]
  exact if_pos rfl

theorem compareCrcs_verdict (r e : Word) : (compareCrcs r e).verdict = if r = e then .ok else .crc := by
  unfold compareCrcs
  split <;> rfl

theorem compareCrcs_verdict_of_ne {r e : Word} (h : r ≠ e) : (compareCrcs r e).verdict = .crc :=
  (compareCrcs_verdict r e).trans (if_neg h)

/-! ## One flipped bit -/

theorem length_flipBit (j : Nat) (l : List Byte) : (flipBit j l).length = l.length := List.length_modify _ _ _

theorem flipBit_append_left {j : Nat} {l : List Byte} (h : j < 8 * l.length) (r : List Byte) :
    flipBit j (l ++ r) = flipBit j l ++ r := by
  have hl : j / 8 < l.length := by omega
  have hlr : j / 8 < (l ++ r).length := by rw [List.length_append]; omega
  rw [flipBit, flipBit, List.modify_eq_take_cons_drop hl, List.modify_eq_take_cons_drop hlr,
    List.getElem_append_left hl, List.take_append_of_le_length hl.le, List.drop_append_of_le_length hl,
    List.append_assoc, List.cons_append]

theorem flipBit_append_right (j : Nat) (l r : List Byte) : flipBit (8 * l.length + j) (l ++ r) = l ++ flipBit j r := by
  induction l with
  | nil => simp
  | cons b l ih =>
    have hdiv : (8 * (b :: l).length + j) / 8 = (8 * l.length + j) / 8 + 1 := by rw [List.length_cons]; omega
    have hmod : (8 * (b :: l).length + j) % 8 = (8 * l.length + j) % 8 := by rw [List.length_cons]; omega
    rw [flipBit, hdiv, hmod, List.cons_append, List.modify_succ_cons, List.cons_append]
    exact congrArg _ ih

theorem xor_bit_ne (b : Byte) (j : Nat) : b ^^^ (1#8 <<< (j % 8)) ≠ b := by
  have hj : j % 8 < 8 := Nat.mod_lt _ (by decide)
  intro h
  have hbit := congrArg (fun v => BitVec.getLsbD v (j % 8)) h
  simp [hj] at hbit

/-- A flipped bit changes one byte, and the byte it is in only. -/
theorem exists_byte_of_flipBit {j : Nat} {l : List Byte} (h : j < 8 * l.length) :
    ∃ x b b' y, l = x ++ b :: y ∧ flipBit j l = x ++ b' :: y ∧ b' ≠ b := by
  obtain ⟨x, b, y, hl, -, hflip⟩ := List.exists_of_modify (· ^^^ (1#8 <<< (j % 8))) (show j / 8 < l.length by omega)
  exact ⟨x, b, _, y, hl, hflip, xor_bit_ne b j⟩

theorem flipBit_ne {j : Nat} {l : List Byte} (h : j < 8 * l.length) : flipBit j l ≠ l := by
  obtain ⟨x, b, b', y, hl, hflip, hne⟩ := exists_byte_of_flipBit h
  rw [hflip, hl]
  simpa using hne

/-- Two inputs that differ in one byte have different checksums, and so a flipped bit is seen (90_conflicts.md C5). -/
theorem compute_flipBit_ne {j : Nat} {d : List Byte} (h : j < 8 * d.length) : compute (flipBit j d) ≠ compute d := by
  obtain ⟨x, b, b', y, rfl, hflip, hne⟩ := exists_byte_of_flipBit h
  rw [hflip]
  intro heq
  have hext := (BitVec.xor_left_inj _).mp heq
  simp only [extend_append, extend_cons] at hext
  exact hne (crcStep_injective_byte _ (extend_injective y hext))

/-! ## Bytes in a word -/

theorem pushByte_low (w : Word) (b : Byte) : (pushByte w b).extractLsb' 0 8 = b := by
  refine BitVec.eq_of_getLsbD_eq fun i hi => ?_
  simp [hi]

theorem pushByte_next (w : Word) (b : Byte) {k : Nat} (hk : k ≤ 16) :
    (pushByte w b).extractLsb' (k + 8) 8 = w.extractLsb' k 8 := by
  refine BitVec.eq_of_getLsbD_eq fun i hi => ?_
  rw [BitVec.getLsbD_extractLsb', BitVec.getLsbD_extractLsb', pushByte_getLsbD, if_neg (by omega),
    decide_eq_true hi, decide_eq_true (by omega), show k + 8 + i - 8 = k + i by omega,
    Bool.true_and]

/-- After four bytes a word holds these and nothing of what it held before. -/
theorem be32bytes_foldl_pushByte (w : Word) (a b c d : Byte) :
    be32bytes ([a, b, c, d].foldl pushByte w) = [a, b, c, d] := by
  simp [be32bytes, pushByte_low, pushByte_next _ _ (k := 16), pushByte_next _ _ (k := 8), pushByte_next _ _ (k := 0)]

/-- `be32` loses nothing of four bytes. -/
theorem be32bytes_be32 {d : List Byte} (h : d.length = 4) : be32bytes (be32 d) = d := by
  obtain ⟨a, b, c, e, rfl⟩ := List.length_eq_four.mp h
  exact be32bytes_foldl_pushByte 0#32 a b c e

theorem oldestByte_be32 (a b c d : Byte) : oldestByte (be32 [a, b, c, d]) = a :=
  (List.cons.inj (be32bytes_foldl_pushByte 0#32 a b c d)).1

/-! ## Bits flipped after the preamble and in it -/

/-- Settles O47: a flipped payload bit changes the computed checksum, a flipped trailer bit the received one. -/
theorem flippedBitAfterPreambleIsCrcMismatch : Obligations.FlippedBitAfterPreambleIsCrcMismatch := by
  intro p j hfrom hto
  by_cases hpayload : j < 8 * (preamble ++ p).length
  · obtain ⟨k, rfl⟩ : ∃ k, j = 8 * preamble.length + k := ⟨j - 64, by rw [preamble_length]; omega⟩
    have hflip := flipBit_append_right k preamble p
    rw [mkframe, flipBit_append_left hpayload, hflip, validate_preamble_append _ _ rfl, be32_be32bytes, ← hflip]
    exact compareCrcs_verdict_of_ne (compute_flipBit_ne hpayload).symm
  · obtain ⟨k, rfl⟩ : ∃ k, j = 8 * (preamble ++ p).length + k := ⟨j - 8 * (preamble ++ p).length, by omega⟩
    have htrailer : (flipBit k (be32bytes (compute (preamble ++ p)))).length = 4 := length_flipBit _ _
    have hk : k < 8 * (be32bytes (compute (preamble ++ p))).length := by
      simp [preamble_length, be32bytes] at hto ⊢; omega
    rw [mkframe, flipBit_append_right, validate_preamble_append _ _ htrailer]
    refine compareCrcs_verdict_of_ne fun heq => flipBit_ne hk ?_
    rw [← be32bytes_be32 htrailer, heq]

/-- Settles O48: the first eight bytes are then no preamble, and no checksum is looked at. -/
theorem flippedBitInPreambleIsBadHandshake : Obligations.FlippedBitInPreambleIsBadHandshake := by
  intro p j c hj
  have hpre : j < 8 * preamble.length := hj
  rw [mkframe, List.append_assoc, flipBit_append_left hpre]
  refine validate_badHandshake c ?_ ?_
  · rw [List.length_append, length_flipBit, preamble_length]
    exact Nat.le_add_right _ _
  · have hlen : (flipBit j preamble).length = 8 := length_flipBit j preamble
    rw [List.take_left' hlen]
    exact flipBit_ne hpre

/-! ## Good frames -/

/-- The bytes 4 to 7 of the preamble are not on top of the checksum of the preamble before them. -/
theorem compute_preamble_top_ne : ∀ k : Fin 4,
    preamble[4 + k.val]? ≠ some (oldestByte (compute (preamble.take (4 + k.val)))) := by
  decide +kernel

/-- A trailer that begins inside the preamble has a preamble byte on top, and so is never the checksum of the bytes
before it (41_frame_validator.md section 2, lengths 8 to 11). -/
theorem trailer_ne_compute {f : List Byte} (hlong : 8 ≤ f.length) (hshort : f.length ≤ 11) (hpre : f.take 8 = preamble) :
    be32 (f.drop (f.length - 4)) ≠ compute (f.take (f.length - 4)) := by
  obtain ⟨k, hk⟩ : ∃ k : Fin 4, f.length - 4 = 4 + k.val := ⟨⟨f.length - 8, by omega⟩, by simp; omega⟩
  have hlen : (f.drop (4 + k.val)).length = 4 := by rw [List.length_drop]; omega
  obtain ⟨a, b, c, d, htrailer⟩ := List.length_eq_four.mp hlen
  have hfirst : preamble[4 + k.val]? = some a := by
    rw [← hpre, List.getElem?_take_of_lt (by omega), ← Nat.add_zero (4 + k.val), ← List.getElem?_drop, htrailer]
    rfl
  have hrest : f.take (4 + k.val) = preamble.take (4 + k.val) := by
    rw [← hpre, List.take_take, Nat.min_eq_left (by omega)]
  rw [hk, htrailer, hrest]
  intro heq
  refine compute_preamble_top_ne k ?_
  rw [hfirst, ← heq, oldestByte_be32]

theorem compareCrcs_verdict_eq_ok {r e : Word} : (compareCrcs r e).verdict = .ok ↔ r = e := by
  simp [compareCrcs_verdict]

/-- Settles O49: only a frame that reaches the comparison is good, and then it is longer than 11 bytes. -/
theorem goodFramesAreWellFormed : Obligations.GoodFramesAreWellFormed := by
  refine ⟨fun f => ?_, fun f hlong hshort hpre => ?_⟩
  · by_cases hlong : 8 ≤ f.length
    · by_cases hpre : f.take 8 = preamble
      · rw [validate_compared none hlong hpre, compareCrcs_verdict_eq_ok]
        refine ⟨fun heq => ⟨?_, hpre, heq⟩, fun ⟨_, _, heq⟩ => heq⟩
        by_contra hshort
        exact trailer_ne_compute hlong (Nat.lt_succ_iff.mp (Nat.lt_of_not_le hshort)) hpre heq
      · rw [validate_badHandshake none hlong hpre]
        exact ⟨nofun, fun ⟨_, hpre', _⟩ => absurd hpre' hpre⟩
    · rw [validate_short none (Nat.lt_of_not_le hlong)]
      exact ⟨nofun, fun ⟨hlen, _, _⟩ => absurd (Nat.le_trans (by decide) hlen) hlong⟩
  · rw [validate_compared none hlong hpre]
    exact compareCrcs_verdict_of_ne (trailer_ne_compute hlong hshort hpre)

end Sys2Proof.Machine
end

section
/-! PROOFS. Command sequences of the engine, 40_crc_engine.md section 4: runs put together from steps, and `ACC` as
`extend` of the bytes the `EXTB` commands carry. -/

namespace Sys2Proof.Machine

/-! ## Runs from steps -/

theorem runsTo_append (m n : Nat) (s u : State) : RunsTo (m + n) s u ↔ ∃ t, RunsTo m s t ∧ RunsTo n t u := by
  induction m generalizing s with
  | zero => simp [runsTo_zero]
  | succ m ih =>
    simp only [Nat.succ_add, runsTo_succ, ih]
    constructor
    · rintro ⟨v, hstep, t, hm, hn⟩
      exact ⟨t, ⟨v, hstep, hm⟩, hn⟩
    · rintro ⟨t, ⟨v, hstep, hm⟩, hn⟩
      exact ⟨v, hstep, t, hm, hn⟩

/-- Acts run through when each of them steps to where the acts after it run through; `Holds acts s` says what holds in
`s` with `acts` still to come, `Answers a r` that the act `a` may be answered with `r`. -/
theorem runsTo_of_steps {Holds : List HostAct → State → Prop} {Answers : HostAct → RspWord → Prop}
    {rest : List HostAct}
    (hstep : ∀ a acts s, Holds (a :: acts) s → s.host = a :: (acts ++ rest) → ∃ t r, step s = .next t ∧
      t.host = acts ++ rest ∧ t.rsps = s.rsps ++ [r] ∧ Answers a r ∧ Holds acts t)
    (acts : List HostAct) (s : State) (hs : Holds acts s) (hhost : s.host = acts ++ rest) :
    ∃ t rs, RunsTo acts.length s t ∧ t.host = rest ∧ t.rsps = s.rsps ++ rs ∧ List.Forall₂ Answers acts rs ∧
      Holds [] t := by
  induction acts generalizing s with
  | nil => exact ⟨s, [], (runsTo_zero s s).mpr rfl, hhost, (List.append_nil _).symm, .nil, hs⟩
  | cons a acts ih =>
    obtain ⟨u, r, hu, hhostu, hrsp, hr, hholds⟩ := hstep a acts s hs hhost
    obtain ⟨t, rs, hrun, hhostt, hrsps, hrs, hend⟩ := ih u hholds hhostu
    refine ⟨t, r :: rs, (runsTo_succ _ s t).mpr ⟨u, hu, hrun⟩, hhostt, ?_, .cons hr hrs, hend⟩
    rw [hrsps, hrsp, List.append_assoc, List.singleton_append]

/-! ## One act -/

theorem command?_eq_some_iff {w : CmdWord} {i : Instr} : (HostAct.cmd w).command? = some i ↔ decode w = .ok i := by
  cases hw : decode w <;> simp [HostAct.command?, hw, Except.toOption]

theorem command?_of_ok {w : CmdWord} {i : Instr} (hw : decode w = .ok i) : (HostAct.cmd w).command? = some i :=
  command?_eq_some_iff.mpr hw

theorem command?_of_error {w : CmdWord} {e : Illegal} (hw : decode w = .error e) : (HostAct.cmd w).command? = none := by
  rw [HostAct.command?, hw]
  rfl

theorem not_isReset_of_keepsComputation {a : HostAct} (h : a.keepsComputation = true) : a.isReset = false := by
  cases a with
  | cmd w => rfl
  | rst | rstDuring w => cases h

/-- The commands that write `ACC` are those that start a computation, and `EXTB`. -/
theorem keepsComputation_mnemonic {w : CmdWord} {i : Instr} (hw : decode w = .ok i)
    (hkeep : (HostAct.cmd w).keepsComputation = true) (hi : ∀ b, i ≠ .extb b) :
    i.mnemonic ∉ ["SEED", "LDACC", "EXTB"] := by
  rw [HostAct.keepsComputation, command?_of_ok hw] at hkeep
  cases i with
  | seed | ldacc v => cases hkeep
  | extb b => exact absurd rfl (hi b)
  | _ => simp [Instr.mnemonic]

/-- Settles O56: an `EXTB` extends by its byte, no other command that may stand here writes `ACC`, and an illegal word
is refused. -/
theorem eachActAdvancesTheComputation : Obligations.EachActAdvancesTheComputation := by
  intro a rest s hinv htv hhost hkeep
  obtain ⟨w, rfl⟩ := exists_cmd_of_not_isReset (not_isReset_of_keepsComputation hkeep)
  cases hw : decode w with
  | error e =>
    have hcmd := command?_of_error hw
    refine ⟨_, _, step_illegal hw hhost, rfl, ?_, rfl, by simp [hcmd]⟩
    simp [extbBytes, hcmd, refusedWith]
  | ok i =>
    have hcmd := command?_of_ok hw
    by_cases hi : ∃ b, i = .extb b
    · obtain ⟨b, rfl⟩ := hi
      obtain ⟨-, hext, -⟩ := extbExtendsByOneByte b { s with host := rest }
      refine ⟨_, _, (step_decoded hw hhost).trans (hext hinv.table htv), rfl, ?_, rfl, fun _ _ => rfl⟩
      simp [extbBytes, hcmd, answered]
    · have hne : ∀ b, i ≠ .extb b := not_exists.mp hi
      obtain ⟨t, val, hexec, hrsps⟩ := outcomeTable i { s with host := rest } hinv.table
      obtain ⟨hhost', -, hacc, -⟩ := commandsWriteOnlyWhatTheMatrixSays i _ t hexec
      refine ⟨t, _, (step_decoded hw hhost).trans hexec, hhost', ?_, hrsps, ?_⟩
      · rw [hacc (keepsComputation_mnemonic hw hkeep hne)]
        cases i with
        | extb b => exact absurd rfl (hne b)
        | _ => simp [extbBytes, hcmd]
      · rintro b hb
        exact absurd (Option.some.inj (hcmd.symm.trans hb)) (hne b)

/-! ## Any acts between the bytes -/

theorem extbBytes_cons (a : HostAct) (acts : List HostAct) : extbBytes (a :: acts) = extbBytes [a] ++ extbBytes acts :=
  List.filterMap_append (l := [a])

/-- What holds in a state whose computation ends at `final` with some acts still to come. -/
structure ComputationLeft (final : Word) (acts : List HostAct) (s : State) : Prop where
  inv : Inv s
  tv : s.block.tv = true
  keeps : ∀ a ∈ acts, a.keepsComputation = true
  acc : extend s.block.acc (extbBytes acts) = final

/-- Settles O51: by the step for one act, the invariants and `TV` staying. -/
theorem extbCommandsComputeExtend : Obligations.ExtbCommandsComputeExtend := by
  intro acts rest s hinv htv hhost hkeeps
  have hstep : ∀ a acts' u, ComputationLeft (extend s.block.acc (extbBytes acts)) (a :: acts') u →
      u.host = a :: (acts' ++ rest) → ∃ t r, step u = .next t ∧ t.host = acts' ++ rest ∧ t.rsps = u.rsps ++ [r] ∧
      (∀ b, a.command? = some (.extb b) → r = 0#36) ∧
      ComputationLeft (extend s.block.acc (extbBytes acts)) acts' t := by
    rintro a acts' u ⟨hinv', htv', hkeeps', hacc'⟩ hhost'
    obtain ⟨hkeep, hkeeps''⟩ := List.forall_mem_cons.mp hkeeps'
    obtain ⟨t, r, hstep, hhostt, hacct, hrsp, hr⟩ := eachActAdvancesTheComputation a _ u hinv' htv' hhost' hkeep
    obtain ⟨htvt, -⟩ := tableValidAndErrorAreSticky a u t _ hhost' (not_isReset_of_keepsComputation hkeep) hstep
    refine ⟨t, r, hstep, hhostt, hrsp, hr, stepKeepsInvariants u t hinv' hstep, htvt htv', hkeeps'', ?_⟩
    rw [hacct, ← extend_append, ← extbBytes_cons, hacc']
  obtain ⟨t, rs, hrun, hhostt, hrsps, hrs, hend⟩ := runsTo_of_steps hstep acts s ⟨hinv, htv, hkeeps, rfl⟩ hhost
  exact ⟨t, rs, hrun, hhostt, hend.acc, hrsps, hrs⟩

/-! ## A computation by itself -/

/-- `EXTB` over some bytes, with the responses one by one. -/
theorem runsTo_extbs (d : List Byte) (rest : List HostAct) (s : State) (hbuilt : TableBuilt s.block)
    (htv : s.block.tv = true) (hhost : s.host = (d.map fun b => .cmd (encode (.extb b))) ++ rest) :
    RunsTo d.length s
      { block := s.block.withAcc (extend s.block.acc d)
        host := rest
        rsps := s.rsps ++ List.replicate d.length 0#36 } := by
  induction d generalizing s with
  | nil =>
    subst hhost
    refine (runsTo_zero _ _).mpr ?_
    simp [Block.withAcc]
  | cons b d ih =>
    obtain ⟨-, hext, -⟩ := extbExtendsByOneByte b
      { s with host := (d.map fun b => .cmd (encode (.extb b))) ++ rest }
    refine (runsTo_succ _ _ _).mpr ⟨_, (step_decoded (decodeEncodeIsIdentity _) hhost).trans (hext hbuilt htv), ?_⟩
    have hrest := ih (answered { s with host := _ } (s.block.withAcc (crcStep s.block.acc b)) 0#32) hbuilt htv rfl
    simpa [answered, Block.withAcc, List.replicate_succ] using hrest

/-- A command that puts `a` in `ACC`, `EXTB` over some bytes and `FINAL` (30_encoding.md R54 `COMPUTE`). -/
theorem runsTo_computation {i : Instr} {a : Word}
    (hstart : ∀ s, exec i s = .next (answered s (s.block.withAcc a) 0#32)) (d : List Byte) (rest : List HostAct)
    (s : State) (hbuilt : TableBuilt s.block) (htv : s.block.tv = true)
    (hhost : s.host = .cmd (encode i) :: (d.map fun b => .cmd (encode (.extb b))) ++ .cmd (encode .final) :: rest) :
    RunsTo (d.length + 2) s
      { block := s.block.withAcc (extend a d)
        host := rest
        rsps := s.rsps ++ List.replicate (d.length + 1) 0#36 ++ [0#4 ++ (extend a d ^^^ 0xFFFFFFFF#32)] } := by
  refine (runsTo_succ _ _ _).mpr ⟨_, (step_decoded (decodeEncodeIsIdentity i) hhost).trans (hstart _), ?_⟩
  refine (runsTo_append d.length 1 _ _).mpr ⟨_, runsTo_extbs d (.cmd (encode .final) :: rest) _ hbuilt htv rfl, ?_⟩
  refine (runsTo_succ _ _ _).mpr ⟨_, (step_decoded (decodeEncodeIsIdentity .final) rfl).trans
    (finalReadsTheChecksum.2 _), ?_⟩
  refine (runsTo_zero _ _).mpr ?_
  simp [answered, Block.withAcc, List.replicate_succ]

/-- Settles O52: a computation started at all-ones. -/
theorem computeSequenceAnswersCompute : Obligations.ComputeSequenceAnswersCompute :=
  fun d rest s => runsTo_computation seedStartsAComputation.2 d rest s

/-- Settles O53: a computation started where the saved one stopped. -/
theorem savedComputationIsResumed : Obligations.SavedComputationIsResumed := by
  intro d e rest s hbuilt htv hhost
  have hrun := runsTo_computation (fun s => (ldaccLoadsTheAccumulator _ s).2) e rest s hbuilt htv hhost
  rwa [← extend_append] at hrun

end Sys2Proof.Machine
end

section
/-! PROOFS. Command sequences of the validator, 41_frame_validator.md section 4: what the block holds of the open frame,
byte by byte, and the frame end as `validate`. -/

namespace Sys2Proof.Machine

/-! ## The window -/

/-- What `WIN` holds after the bytes `f`: the last four, with zero bytes in front of fewer. -/
def lastFour (f : List Byte) : List Byte := List.replicate (4 - f.length) 0#8 ++ f.drop (f.length - 4)

theorem length_lastFour (f : List Byte) : (lastFour f).length = 4 := by
  simp only [lastFour, List.length_append, List.length_replicate, List.length_drop]
  omega

theorem lastFour_append_four (g : List Byte) (a b c d : Byte) : lastFour (g ++ [a, b, c, d]) = [a, b, c, d] := by
  simp [lastFour]

theorem exists_append_four {f : List Byte} (h : 4 ≤ f.length) : ∃ g a b c d, f = g ++ [a, b, c, d] := by
  obtain ⟨a, b, c, d, hlast⟩ := List.length_eq_four.mp (show (f.drop (f.length - 4)).length = 4 by simp; omega)
  exact ⟨f.take (f.length - 4), a, b, c, d, by rw [← hlast, List.take_append_drop]⟩

/-- A byte enters the window and the oldest leaves it. -/
theorem lastFour_append_singleton (f : List Byte) (x : Byte) : lastFour (f ++ [x]) = (lastFour f).tail ++ [x] := by
  by_cases h : 4 ≤ f.length
  · obtain ⟨g, a, b, c, d, rfl⟩ := exists_append_four h
    have hsplit : g ++ [a, b, c, d] ++ [x] = (g ++ [a]) ++ [b, c, d, x] := by simp
    rw [hsplit, lastFour_append_four, lastFour_append_four]
    rfl
  · have hfew : 4 - f.length = 3 - f.length + 1 := by omega
    simp [lastFour, hfew, List.replicate_succ, show f.length - 4 = 0 by omega, show f.length + 1 - 4 = 0 by omega]

/-- Four bytes fill a word, whatever it held. -/
theorem foldl_pushByte_four (w : Word) {d : List Byte} (h : d.length = 4) : d.foldl pushByte w = be32 d := by
  obtain ⟨a, b, c, e, rfl⟩ := List.length_eq_four.mp h
  rw [← be32_be32bytes ([a, b, c, e].foldl pushByte w), be32bytes_foldl_pushByte]

theorem pushByte_be32_lastFour (f : List Byte) (x : Byte) :
    pushByte (be32 (lastFour f)) x = be32 (lastFour (f ++ [x])) := by
  obtain ⟨a, b, c, d, hlast⟩ := List.length_eq_four.mp (length_lastFour f)
  rw [lastFour_append_singleton, hlast]
  exact foldl_pushByte_four (pushByte 0#32 a) (d := [b, c, d, x]) rfl

/-- The bytes that have left the window: one more, the oldest in it, from the fifth byte on. -/
theorem extend_left_window (a : Word) (f : List Byte) (x : Byte) :
    extend a ((f ++ [x]).take ((f ++ [x]).length - 4)) =
      if 4 ≤ f.length then crcStep (extend a (f.take (f.length - 4))) (oldestByte (be32 (lastFour f)))
      else extend a (f.take (f.length - 4)) := by
  by_cases h : 4 ≤ f.length
  · rw [if_pos h]
    obtain ⟨g, b, c, d, e, rfl⟩ := exists_append_four h
    have hbefore : (g ++ [b, c, d, e]).take ((g ++ [b, c, d, e]).length - 4) = g := by simp
    have hafter : (g ++ [b, c, d, e] ++ [x]).take ((g ++ [b, c, d, e] ++ [x]).length - 4) = g ++ [b] := by
      have hsplit : g ++ [b, c, d, e] ++ [x] = (g ++ [b]) ++ [c, d, e, x] := by simp
      rw [hsplit, List.length_append]
      exact List.take_left
    rw [hbefore, hafter, lastFour_append_four, oldestByte_be32, extend_append]
    rfl
  · rw [if_neg h, List.length_append, List.length_singleton]
    simp [show f.length - 4 = 0 by omega, show f.length + 1 - 4 = 0 by omega]

/-! ## The handshake -/

/-- The bytes agree with the preamble so far: what `HSOK` says of them. -/
def AgreesWithPreamble (f : List Byte) : Prop := ∀ j, j < min f.length 8 → f[j]? = preamble[j]?

theorem agreesWithPreamble_append_singleton (f : List Byte) (x : Byte) :
    AgreesWithPreamble (f ++ [x]) ↔ AgreesWithPreamble f ∧ (f.length < 8 → preamble[f.length]? = some x) := by
  have hold : ∀ j, j < f.length → (f ++ [x])[j]? = f[j]? := fun j hj => List.getElem?_append_left hj
  by_cases h : f.length < 8
  · have hmin : min (f ++ [x]).length 8 = f.length + 1 := by simp; omega
    rw [AgreesWithPreamble, AgreesWithPreamble, hmin, Nat.min_eq_left h.le, Nat.forall_lt_succ_right]
    refine and_congr (forall₂_congr fun j hj => by rw [hold j hj]) ?_
    rw [List.getElem?_concat_length, eq_comm, forall_prop_of_true h]
  · have hmin : min (f ++ [x]).length 8 = 8 := by simp; omega
    rw [AgreesWithPreamble, AgreesWithPreamble, hmin, Nat.min_eq_right (Nat.le_of_not_lt h)]
    simp only [h, false_imp_iff, and_true]
    exact forall₂_congr fun j hj => by rw [hold j (by omega)]

/-- A frame that has its first eight bytes agrees with the preamble when they are it. -/
theorem agreesWithPreamble_iff_take {f : List Byte} (h : 8 ≤ f.length) : AgreesWithPreamble f ↔ f.take 8 = preamble := by
  rw [AgreesWithPreamble, Nat.min_eq_right h]
  constructor
  · intro hagree
    refine List.ext_getElem? fun j => ?_
    by_cases hj : j < 8
    · rw [List.getElem?_take_of_lt hj, hagree j hj]
    · rw [List.getElem?_eq_none (by simp; omega), List.getElem?_eq_none (by rw [preamble_length]; omega)]
  · intro htake j hj
    rw [← htake, List.getElem?_take_of_lt hj]

/-! ## The open frame -/

/-- Only the five elements of the open frame matter to what the block holds of it. -/
theorem FrameTaken.of_same_frame {f : List Byte} {b b' : Block} (h : FrameTaken f b) (hphase : b'.phase = b.phase)
    (hframe : b'.fcnt = b.fcnt ∧ b'.hsok = b.hsok ∧ b'.win = b.win ∧ b'.vacc = b.vacc) : FrameTaken f b' := by
  obtain ⟨hcount, hhsok, hwin, hvacc⟩ := hframe
  exact ⟨hphase.trans h.phase, by rw [hcount, h.count], by rw [hhsok, h.handshake], by rw [hwin, h.window],
    by rw [hvacc, h.accumulator]⟩

/-- `FSTART` opens the empty frame. -/
theorem frameTaken_openFrame (b : Block) : FrameTaken [] b.openFrame where
  phase := rfl
  count := rfl
  handshake := by simp
  window := rfl
  accumulator := rfl

/-- `HSOK` after one byte more. -/
theorem FrameTaken.hsokAfter_iff {f : List Byte} {b : Block} (h : FrameTaken f b) (x : Byte) :
    hsokAfter b x = true ↔ AgreesWithPreamble (f ++ [x]) := by
  have hagree : b.hsok = true ↔ AgreesWithPreamble f := h.handshake
  rw [agreesWithPreamble_append_singleton, ← hagree, hsokAfter_eq, h.count]
  split_ifs with hbad
  · simp [hbad]
  · simp only [ne_eq, not_and, not_not] at hbad
    exact (and_iff_left hbad).symm

/-- A byte more: the counter, the handshake, the window and the accumulator of the longer frame (41_frame_validator.md
R101, R108). -/
theorem FrameTaken.takeByte {f : List Byte} {b : Block} (h : FrameTaken f b) (hcount : b.fcnt ≠ 0xFFFFFFFF#32) (x : Byte) :
    FrameTaken (f ++ [x])
      (b.takeByte x (if 4 ≤ b.fcnt.toNat then crcStep b.vacc (oldestByte b.win) else b.vacc)) where
  phase := h.phase
  count := by rw [Block.takeByte_fcnt, toNat_add_one_of_ne_max hcount, h.count, List.length_append]; rfl
  handshake := h.hsokAfter_iff x
  window := by
    have hwin : b.win = be32 (lastFour f) := h.window
    rw [Block.takeByte_win, hwin, pushByte_be32_lastFour]
    rfl
  accumulator := by
    have hwin : b.win = be32 (lastFour f) := h.window
    rw [Block.takeByte_vacc, extend_left_window, h.count, hwin, ← h.accumulator]

/-! ## One act -/

theorem not_isReset_of_keepsFrame {a : HostAct} (h : a.keepsFrame = true) : a.isReset = false := by
  cases a with
  | cmd w => rfl
  | rst | rstDuring w => cases h

/-- The commands that open or end a frame may not stand inside one. -/
theorem keepsFrame_mnemonic {w : CmdWord} {i : Instr} (hw : decode w = .ok i)
    (hkeep : (HostAct.cmd w).keepsFrame = true) : i.mnemonic ∉ ["FSTART", "FENDC", "FENDP"] := by
  rw [HostAct.keepsFrame, command?_of_ok hw] at hkeep
  cases i with
  | fstart | fendc | fendp v => cases hkeep
  | _ => simp [Instr.mnemonic]

theorem fbyteBytes_of_fbyte {a : HostAct} {b : Byte} (h : a.command? = some (.fbyte b)) : fbyteBytes [a] = [b] := by
  simp [fbyteBytes, h]

theorem fbyteBytes_eq_nil {a : HostAct} (h : ∀ b, a.command? ≠ some (.fbyte b)) : fbyteBytes [a] = [] := by
  rw [fbyteBytes, List.filterMap_eq_nil_iff]
  intro c hc
  obtain rfl := List.mem_singleton.mp hc
  split
  · exact absurd ‹_› (h _)
  · rfl

/-- A command word other than `FBYTE` that may stand inside a frame is answered and leaves the frame. -/
theorem step_keeps_frameTaken {w : CmdWord} {rest : List HostAct} {s : State} {f : List Byte}
    (hbuilt : TableBuilt s.block) (htaken : FrameTaken f s.block) (hhost : s.host = .cmd w :: rest)
    (hkeep : (HostAct.cmd w).keepsFrame = true) (hnone : ∀ b, (HostAct.cmd w).command? ≠ some (.fbyte b)) :
    ∃ t r, step s = .next t ∧ t.host = rest ∧ t.rsps = s.rsps ++ [r] ∧ FrameTaken f t.block := by
  cases hw : decode w with
  | error e => exact ⟨_, _, step_illegal hw hhost, rfl, rfl, htaken.of_same_frame rfl ⟨rfl, rfl, rfl, rfl⟩⟩
  | ok i =>
    obtain ⟨t, val, hexec, hrsps⟩ := outcomeTable i { s with host := rest } hbuilt
    obtain ⟨hhost', -, -, hphase, hframe, -⟩ := commandsWriteOnlyWhatTheMatrixSays i _ t hexec
    have hi : i.mnemonic ∉ ["FSTART", "FENDC", "FENDP"] := keepsFrame_mnemonic hw hkeep
    have hi' : i.mnemonic ∉ ["FSTART", "FBYTE"] := by
      cases i with
      | fstart => simp [Instr.mnemonic] at hi
      | fbyte b => exact absurd (command?_of_ok hw) (hnone b)
      | _ => simp [Instr.mnemonic]
    exact ⟨t, _, (step_decoded hw hhost).trans hexec, hhost', hrsps, htaken.of_same_frame (hphase hi) (hframe hi')⟩

/-- An `FBYTE` with room for its byte is answered `(OK, 0)`, and the block holds the longer frame. -/
theorem step_fbyte_of_room {w : CmdWord} {x : Byte} {rest : List HostAct} {s : State} {f : List Byte} (hinv : Inv s)
    (htv : s.block.tv = true) (htaken : FrameTaken f s.block) (hhost : s.host = .cmd w :: rest)
    (hw : decode w = .ok (.fbyte x)) (hroom : f.length + 1 ≤ 4294967295) :
    ∃ t, step s = .next t ∧ t.host = rest ∧ t.rsps = s.rsps ++ [0#36] ∧ FrameTaken (f ++ [x]) t.block := by
  have hcount : s.block.fcnt.toNat ≠ 4294967295 := by rw [htaken.count]; omega
  refine ⟨_, (step_decoded hw hhost).trans (exec_answered ⟨htv, htaken.phase, hcount, rfl, _, fed_of_built hinv.table htv,
    rfl⟩), rfl, rfl, ?_⟩
  exact htaken.takeByte (fun hmax => hcount (congrArg BitVec.toNat hmax)) x

/-- An `FBYTE` without room for its byte is refused `E_LEN`, and the block holds the frame as it was. -/
theorem step_fbyte_of_full {w : CmdWord} {x : Byte} {rest : List HostAct} {s : State} {f : List Byte}
    (htv : s.block.tv = true) (htaken : FrameTaken f s.block) (hhost : s.host = .cmd w :: rest)
    (hw : decode w = .ok (.fbyte x)) (hfull : 4294967295 < f.length + 1) :
    ∃ t, step s = .next t ∧ t.host = rest ∧ t.rsps = s.rsps ++ [4#4 ++ 0#32] ∧ FrameTaken f t.block := by
  have hcount : s.block.fcnt.toNat = 4294967295 := by
    have hlt := s.block.fcnt.isLt
    have hlen := htaken.count
    omega
  exact ⟨_, (step_decoded hw hhost).trans (exec_refused (e := .len) (.inr (.inr ⟨htv, htaken.phase, hcount, rfl⟩))), rfl,
    rfl, htaken.of_same_frame rfl ⟨rfl, rfl, rfl, rfl⟩⟩

/-- Settles O57: an `FBYTE` by whether there is room for its byte; any other act carries none and leaves the frame. -/
theorem eachActAdvancesTheFrame : Obligations.EachActAdvancesTheFrame := by
  intro a rest s f hinv htv htaken hhost hkeep
  obtain ⟨w, rfl⟩ := exists_cmd_of_not_isReset (not_isReset_of_keepsFrame hkeep)
  by_cases hbyte : ∃ x, decode w = .ok (.fbyte x)
  · obtain ⟨x, hw⟩ := hbyte
    have hcarried : fbyteBytes [.cmd w] = [x] := fbyteBytes_of_fbyte (command?_of_ok hw)
    rw [hcarried, List.length_singleton]
    by_cases hroom : f.length + 1 ≤ 4294967295
    · obtain ⟨t, hstep, hhost', hrsp, htaken'⟩ := step_fbyte_of_room hinv htv htaken hhost hw hroom
      exact ⟨t, _, hstep, hhost', hrsp, fun _ => ⟨htaken', fun _ _ => rfl⟩, fun hfull => absurd hroom (by omega)⟩
    · obtain ⟨t, hstep, hhost', hrsp, htaken'⟩ := step_fbyte_of_full htv htaken hhost hw (Nat.lt_of_not_le hroom)
      exact ⟨t, _, hstep, hhost', hrsp, fun hroom' => absurd hroom' hroom, fun _ => ⟨htaken', rfl⟩⟩
  · have hnone : ∀ b, (HostAct.cmd w).command? ≠ some (.fbyte b) := fun b hb =>
      hbyte ⟨b, command?_eq_some_iff.mp hb⟩
    have hlen : f.length < 2 ^ 32 := htaken.count ▸ s.block.fcnt.isLt
    obtain ⟨t, r, hstep, hhost', hrsp, htaken'⟩ := step_keeps_frameTaken hinv.table htaken hhost hkeep hnone
    rw [fbyteBytes_eq_nil hnone, List.append_nil]
    exact ⟨t, r, hstep, hhost', hrsp, fun _ => ⟨htaken', fun b hb => absurd hb (hnone b)⟩,
      fun hover => absurd hover (by simp; omega)⟩

/-! ## Any acts between the bytes -/

theorem fbyteBytes_cons (a : HostAct) (acts : List HostAct) : fbyteBytes (a :: acts) = fbyteBytes [a] ++ fbyteBytes acts :=
  List.filterMap_append (l := [a])

/-- No act inside a frame writes the two checksums: a frame end alone does. -/
theorem step_keeps_checksums {a : HostAct} {rest : List HostAct} {s t : State} (hhost : s.host = a :: rest)
    (hkeep : a.keepsFrame = true) (hstep : step s = .next t) :
    (t.block.rxcrc, t.block.excrc) = (s.block.rxcrc, s.block.excrc) := by
  obtain ⟨w, rfl⟩ := exists_cmd_of_not_isReset (not_isReset_of_keepsFrame hkeep)
  obtain ⟨i, b, v, hw, hacc, rfl⟩ | ⟨e, rfl⟩ := step_cmd_effect hhost hstep
  · cases hacc.writes with
    | closeFrame x hi => exact absurd (List.mem_cons_of_mem _ hi) (keepsFrame_mnemonic hw hkeep)
    | table | acc | openFrame | takeByte | nothing => rfl
  · rfl

/-- What holds in a state whose open frame becomes `f` with some acts still to come, the checksums of an earlier frame
being `crcs`. -/
structure FrameLeft (f : List Byte) (crcs : Word × Word) (acts : List HostAct) (s : State) : Prop where
  inv : Inv s
  tv : s.block.tv = true
  keeps : ∀ a ∈ acts, a.keepsFrame = true
  taken : ∃ g, FrameTaken g s.block ∧ g ++ fbyteBytes acts = f
  checksums : (s.block.rxcrc, s.block.excrc) = crcs

theorem FrameLeft.step {f : List Byte} {crcs : Word × Word} {a : HostAct} {acts rest : List HostAct} {s : State}
    (h : FrameLeft f crcs (a :: acts) s) (hlen : f.length ≤ 4294967295) (hhost : s.host = a :: (acts ++ rest)) :
    ∃ t r, step s = .next t ∧ t.host = acts ++ rest ∧ t.rsps = s.rsps ++ [r] ∧
      (∀ b, a.command? = some (.fbyte b) → r = 0#36) ∧ FrameLeft f crcs acts t := by
  obtain ⟨hinv, htv, hkeeps, ⟨g, htaken, hbytes⟩, hcrcs⟩ := h
  obtain ⟨hkeep, hkeeps'⟩ := List.forall_mem_cons.mp hkeeps
  rw [fbyteBytes_cons, ← List.append_assoc] at hbytes
  have hroom : g.length + (fbyteBytes [a]).length ≤ 4294967295 := by
    rw [← hbytes, List.length_append, List.length_append] at hlen
    omega
  obtain ⟨t, r, hstep, hhost', hrsp, hadvance, -⟩ := eachActAdvancesTheFrame a _ s g hinv htv htaken hhost hkeep
  obtain ⟨htaken', hr⟩ := hadvance hroom
  obtain ⟨htv', -⟩ := tableValidAndErrorAreSticky a s t _ hhost (not_isReset_of_keepsFrame hkeep) hstep
  exact ⟨t, r, hstep, hhost', hrsp, hr, stepKeepsInvariants s t hinv hstep, htv' htv, hkeeps', ⟨_, htaken', hbytes⟩,
    (step_keeps_checksums hhost hkeep hstep).trans hcrcs⟩

/-- `FSTART` and the bytes of a frame, with any acts between them that may stand there. -/
theorem runsTo_frame {acts rest : List HostAct} {s : State} (hinv : Inv s) (htv : s.block.tv = true)
    (hhost : s.host = .cmd (encode .fstart) :: (acts ++ rest)) (hkeeps : ∀ a ∈ acts, a.keepsFrame = true)
    (hlen : (fbyteBytes acts).length ≤ 4294967295) :
    ∃ t rs, RunsTo (acts.length + 1) s t ∧ t.host = rest ∧ t.rsps = s.rsps ++ 0#36 :: rs ∧
      List.Forall₂ (fun a r => ∀ b, a.command? = some (.fbyte b) → r = 0#36) acts rs ∧
      FrameTaken (fbyteBytes acts) t.block ∧ (t.block.rxcrc, t.block.excrc) = (s.block.rxcrc, s.block.excrc) := by
  have hstart := (step_decoded (decodeEncodeIsIdentity .fstart) hhost).trans (fstartOpensAFrame.2 _)
  have hleft := FrameLeft.mk (f := fbyteBytes acts) (stepKeepsInvariants s _ hinv hstart) htv hkeeps
    ⟨[], frameTaken_openFrame s.block, rfl⟩ rfl
  obtain ⟨t, rs, hrun, hhost', hrsps, hrs, hend⟩ :=
    runsTo_of_steps (fun _ _ _ h => h.step hlen) acts _ hleft rfl
  obtain ⟨g, htaken, hbytes⟩ := hend.taken
  rw [fbyteBytes, List.filterMap_nil, List.append_nil] at hbytes
  refine ⟨t, rs, (runsTo_succ _ _ _).mpr ⟨_, hstart, hrun⟩, hhost', ?_, hrs, hbytes ▸ htaken, hend.checksums⟩
  rw [hrsps]
  exact List.append_assoc _ _ _

/-- Settles O54: the empty frame, and one act after the other. -/
theorem fbyteCommandsTrackTheFrame : Obligations.FbyteCommandsTrackTheFrame := by
  intro acts rest s hinv htv hhost hkeeps hlen
  obtain ⟨t, rs, hrun, hhost', hrsps, hrs, htaken, -⟩ := runsTo_frame hinv htv hhost hkeeps hlen
  exact ⟨t, rs, hrun, hhost', htaken, hrsps, hrs⟩

/-! ## The frame end -/

/-- The command that ends a frame against a supplied checksum, or against the computed one. -/
def frameEnd (p : Option Word) : Instr :=
  match p with
  | none => .fendc
  | some v => .fendp v

/-- A frame end compares with what `validate` compares with. -/
theorem exec_frameEnd {f : List Byte} {s : State} (h : FrameTaken f s.block) (p : Option Word) :
    let expected := p.getD (compute (f.take (f.length - 4)))
    exec (frameEnd p) s = .next (answered s (s.block.closeFrame expected)
      ((frameVerdict s.block expected).code.setWidth 32)) := by
  cases p with
  | some v => exact exec_fendp_of_opened h.phase ⟨rfl, rfl⟩
  | none =>
    have hcomputed : s.block.vacc ^^^ 0xFFFFFFFF#32 = compute (f.take (f.length - 4)) := by rw [h.accumulator]; rfl
    rw [frameEnd, exec_fendc, hcomputed]
    exact exec_fendp_of_opened h.phase ⟨rfl, rfl⟩

theorem compareCrcs_checksums (r e : Word) : (compareCrcs r e).checksums = some (r, e) := by
  unfold compareCrcs
  split <;> rfl

/-- The verdict and the checksums a frame end leaves are those of `validate`, by its three branches. -/
theorem closeFrame_eq_validate {f : List Byte} {b : Block} (h : FrameTaken f b) (p : Option Word) :
    let expected := p.getD (compute (f.take (f.length - 4)))
    frameVerdict b expected = (validate f p).verdict ∧
      ((b.closeFrame expected).rxcrc, (b.closeFrame expected).excrc) =
        (validate f p).checksums.getD (b.rxcrc, b.excrc) := by
  intro expected
  by_cases hlong : 8 ≤ f.length
  · have hcount : 8 ≤ b.fcnt.toNat := h.count ▸ hlong
    have hgood : b.hsok = true ↔ f.take 8 = preamble := h.handshake.trans (agreesWithPreamble_iff_take hlong)
    by_cases hpre : f.take 8 = preamble
    · obtain ⟨hverdict, hclose⟩ := closeFrame_compared b expected hcount (hgood.mpr hpre)
      have hwin : b.win = be32 (f.drop (f.length - 4)) := by
        rw [h.window, Nat.sub_eq_zero_of_le (by omega), List.replicate_zero, List.nil_append]
      rw [hverdict, hclose, validate_compared p hlong hpre, compareCrcs_verdict, compareCrcs_checksums, hwin]
      exact ⟨rfl, rfl⟩
    · have hbad : b.hsok = false := by rw [← Bool.not_eq_true, hgood]; exact hpre
      obtain ⟨hverdict, hclose⟩ := closeFrame_hs b expected hcount hbad
      rw [hverdict, hclose, validate_badHandshake p hlong hpre]
      exact ⟨rfl, rfl⟩
  · have hcount : b.fcnt.toNat < 8 := h.count ▸ Nat.lt_of_not_le hlong
    obtain ⟨hverdict, hclose⟩ := closeFrame_short b expected hcount
    rw [hverdict, hclose, validate_short p (Nat.lt_of_not_le hlong)]
    exact ⟨rfl, rfl⟩

/-- Settles O55: the block holds the frame the bytes make, and its end is `validate` of it. -/
theorem frameEndAnswersValidate : Obligations.FrameEndAnswersValidate := by
  intro acts rest s p hinv htv hhost hkeeps hlen
  obtain ⟨u, rs, hrun, hhostu, hrsps, hrs, htaken, hcrcs⟩ :=
    runsTo_frame (rest := .cmd (encode (frameEnd p)) :: rest) hinv htv hhost hkeeps hlen
  obtain ⟨hverdict, hchecksums⟩ := closeFrame_eq_validate htaken p
  have hstep := (step_decoded (decodeEncodeIsIdentity (frameEnd p)) hhostu).trans
    (exec_frameEnd (s := { u with host := rest }) htaken p)
  have hend := (runsTo_append (acts.length + 1) 1 s _).mpr ⟨u, hrun, (runsTo_succ 0 u _).mpr ⟨_, hstep, rfl⟩⟩
  refine ⟨_, 0#36 :: rs, hend, rfl, rfl, hverdict, ?_, by simp [hrs.length_eq], htaken.count, ?_⟩
  · rw [← hverdict, ← hrsps]
    rfl
  · rw [← hcrcs]
    exact hchecksums

end Sys2Proof.Machine
end
